-- ==== Sys2Proof/Word.lean ====
section
/-! DEFINITION. The two word types of the hardware (spec/00_scope.md R7). All arithmetic on them is that of
`BitVec`, which wraps (R8): the program counter's increment is `pc + 1` modulo 65536. -/

namespace Sys2Proof

/-- `Byte`, an unsigned value in 0..255 (R7). -/
abbrev Byte := BitVec 8

/-- `Word16`, an unsigned value in 0..65535 (R7): the program counter and bus addresses. -/
abbrev Word16 := BitVec 16

end Sys2Proof
end

