-- ==== Sys2Proof/Config.lean ====
section
/-! DEFINITION. What an implementation fixes (spec/00_scope.md R5), and the free values of what the spec leaves open.
The opcode bytes `OP_HLT`, `OP_LDA_IMM` and `OP_TAX` are parameters too; they stand in `Sys2Proof/Decode.lean`. The
chosen `ROM_WRITE_POLICY` stands in `Sys2Proof/Machine/Devices.lean`. `BUS_MAP` is OPEN
in the spec: it is what the host attaches (log entry 9). -/

namespace Sys2Proof

/-- `L_MAX`, the largest admitted stream length (R5, R51, decision D9). -/
def Config.streamMax : Nat := 65536

/-- One past the highest bus address, 2 to the power `ALEN` = 16 (R5, R53, decision D10). -/
def Config.busTop : Nat := 65536

/-- FREE VALUE. The byte a device holds at an offset that nothing has written or loaded since the device was created
(`RAM_INIT` and `ROM_INIT`, OPEN: R40, decision D17, `93_implementation_defined.md` U3 "any value"). The first argument
is the draw the device took when it was created, the second the offset. Nothing constrains it: log entry 5, safe. -/
opaque Config.initByte : Nat → Nat → Byte

/-- OPEN CONSTANT. `RAM_CAPACITY`, the bytes in each Ram, one constant for the device type (R5, R37); its value is OPEN
(decision D18) and nothing constrains it: log entry 9, safe. -/
opaque Config.ramCapacity : Nat

/-- OPEN CONSTANT. `ROM_CAPACITY`, the bytes in each Rom, one constant for the device type (R5, R37); its value is OPEN
(decision D18) and nothing constrains it: log entry 9, safe. -/
opaque Config.romCapacity : Nat

/-- The two legal values of `ROM_WRITE_POLICY` (R5, R63). -/
inductive RomWritePolicy where
  /-- An in-range Rom write succeeds and changes nothing. -/
  | ignore
  /-- An in-range Rom write raises `ReadOnlyWrite`. -/
  | fault
  deriving DecidableEq, Repr

end Sys2Proof
end

