-- ==== Sys2Proof/Syntax.lean ====
section
/-! DEFINITION. The instructions, one constructor for each row of spec/opcode_table.json. -/

namespace Sys2Proof

/-- The three rows of the opcode map (R94). An opcode byte of no row is no instruction: it is unsupported (R97). -/
inductive Instr where
  /-- `HLT`, format IMP (R120). -/
  | hlt
  /-- `LDA #imm8`, format IMM (R140); `imm8` is the whole second byte (R93). -/
  | lda (imm8 : Byte)
  /-- `TAX`, format IMP (R145). -/
  | tax
  deriving DecidableEq, Repr

end Sys2Proof
end

