-- ==== Sys2Proof/WellFormed.lean ====
section
/-! DEFINITION. Well-formedness of instructions and of opcode maps. -/

namespace Sys2Proof

/-- An instruction's operand fits its field: `imm8` is a `Byte` (R7, R93). The type of `imm8` already says so, and
so every `Instr` is well-formed (`Laws.instr_wf`). -/
def Instr.wf : Instr → Bool
  | .hlt => true
  | .lda imm8 => decide (imm8.toNat < 256)
  | .tax => true

/-- The opcode bytes of a handler table are well-formed: no two rows claim one byte (R157) and no row claims the halt
byte (R150). The same check, on `[OP_LDA_IMM, OP_TAX]`, says that the three opcode parameters are pairwise distinct
(R5, R95). -/
def opcodeRowsWf (halt : Byte) (rows : List Byte) : Bool :=
  decide rows.Nodup && !rows.contains halt

end Sys2Proof
end

