-- ==== Sys2Proof/Decode.lean ====
section
/-! DEFINITION. Decoding and encoding (spec/30_encoding.md). Decoding is total on any bytes and rejects by name. -/

namespace Sys2Proof

/-- `OP_HLT` (R5, R94): the source's own value. -/
def opHlt : Byte := 0x00

/-- `OP_LDA_IMM` (R5, R95). PRESUMED (the MOS 6502 encoding, the spec's decision D1): log entry 3, unsafe. -/
def opLdaImm : Byte := 0xA9

/-- `OP_TAX` (R5, R95). PRESUMED (the MOS 6502 encoding, the spec's decision D1): log entry 3, unsafe. -/
def opTax : Byte := 0xAA

/-- What `decode(b)` of R96 answers. -/
inductive Opcode where
  | halt
  | ldaImm
  | tax
  | unsupported (b : Byte)
  deriving DecidableEq, Repr

/-- Why bytes are no instruction. -/
inductive DecodeReject where
  /-- There is no opcode byte. The engine halts naturally on it (R113). -/
  | noByte
  /-- The opcode byte has no row (R97). The engine raises `UnsupportedOpcode` (R116). -/
  | unsupportedOpcode (b : Byte)
  /-- The opcode needs an operand byte and there is none. The engine raises `ExpectedParameter` (R117). -/
  | missingOperand
  deriving DecidableEq, Repr

/-- Decoding of the opcode byte: a total function of that byte alone (R96). -/
def decodeOpcode (b : Byte) : Opcode :=
  if b = opHlt then .halt
  else if b = opLdaImm then .ldaImm
  else if b = opTax then .tax
  else .unsupported b

/-- The length in bytes, a function of the opcode alone (R99). -/
def Opcode.length : Opcode → Nat
  | .halt => 1
  | .ldaImm => 2
  | .tax => 1
  | .unsupported _ => 1

/-- Decoding of the bytes at an instruction's first byte: the instruction and the bytes after it, or a rejection by
name. An unsupported opcode is rejected before any operand is looked at (R97, R171). -/
def decode : List Byte → Except DecodeReject (Instr × List Byte)
  | [] => .error .noByte
  | b :: rest =>
    match decodeOpcode b with
    | .halt => .ok (.hlt, rest)
    | .ldaImm =>
      match rest with
      | [] => .error .missingOperand
      | v :: after => .ok (.lda v, after)
    | .tax => .ok (.tax, rest)
    | .unsupported c => .error (.unsupportedOpcode c)

/-- The opcode of an instruction (R94). -/
def Instr.opcode : Instr → Opcode
  | .hlt => .halt
  | .lda _ => .ldaImm
  | .tax => .tax

/-- The bytes of an instruction, the opcode at the lower stream index (R91, R92, R94). -/
def encode : Instr → List Byte
  | .hlt => [opHlt]
  | .lda imm8 => [opLdaImm, imm8]
  | .tax => [opTax]

/-- The stream of a list of instructions. -/
def assemble : List Instr → List Byte
  | [] => []
  | i :: is => encode i ++ assemble is

/-- The instructions found by walking a stream from its first byte, at most `fuel` of them (R99). -/
def walk : Nat → List Byte → Except DecodeReject (List Instr)
  | _, [] => .ok []
  | 0, _ :: _ => .error .noByte
  | fuel + 1, b :: rest =>
    match decode (b :: rest) with
    | .error r => .error r
    | .ok (i, after) =>
      match walk fuel after with
      | .error r => .error r
      | .ok is => .ok (i :: is)

/-- The walk of a whole stream, rejecting by name at the first bytes that are no instruction (R99). -/
def disassemble (bytes : List Byte) : Except DecodeReject (List Instr) :=
  walk bytes.length bytes

/-- The boundaries of a walk whose next byte has the index `index` and which has `skip` operand bytes to pass first. -/
def boundariesFrom : Nat → Nat → List Byte → List Nat
  | _, _, [] => []
  | index, 0, b :: rest => index :: boundariesFrom (index + 1) ((decodeOpcode b).length - 1) rest
  | index, skip + 1, _ :: rest => boundariesFrom (index + 1) skip rest

/-- The instruction boundaries of a stream, the indices of its opcode bytes on a walk from index 0: each is the one before
it plus the length of the opcode there (R99). An unsupported byte has length 1, so the walk goes on past it. -/
def boundaries (bytes : List Byte) : List Nat := boundariesFrom 0 0 bytes

/-- Two hexadecimal digits (R100). -/
def hexByte (b : Byte) : String :=
  String.ofList [(Nat.digitChar (b.toNat / 16)).toUpper, (Nat.digitChar (b.toNat % 16)).toUpper]

/-- The assembler spelling of an instruction (R100). -/
def asmLine : Instr → String
  | .hlt => "HLT"
  | .lda imm8 => "LDA #$" ++ hexByte imm8
  | .tax => "TAX"

/-- The directive that places one literal byte (R101). -/
def byteDirective (b : Byte) : String := ".byte $" ++ hexByte b

/-- Bits `8 * k + 7` to `8 * k` of a table word of `nbits` bits, the bits from the next whole byte up being 0. -/
def tableByte (nbits w k : Nat) : Byte :=
  if k < (nbits + 7) / 8 then BitVec.ofNat 8 (w / 256 ^ k) else 0

/-- A table word laid out in the stream: bit 0 is the least significant bit of the first byte, and the longest
instruction has two bytes (R91, R99). -/
def tableBytes (nbits w : Nat) : List Byte := [tableByte nbits w 0, tableByte nbits w 1]

/-- The instruction the decoder reads from a table word, if any. -/
def decodeTableWord (nbits w : Nat) : Option Instr :=
  match decode (tableBytes nbits w) with
  | .ok (i, _) => some i
  | .error _ => none

/-- An instruction as a table word: the number `decodeTableWord` numbers its bits by. -/
def tableWord (i : Instr) : Nat :=
  match encode i with
  | [b] => b.toNat
  | [b, v] => b.toNat + 256 * v.toNat
  | _ => 0

end Sys2Proof
end

