-- ==== Sys2Proof/Machine/State.lean ====
section
/-! DEFINITION. The state of the machine (spec/10_state.md), its errors, faults and refusals, and the state after reset.
Everything is plain data. -/

namespace Sys2Proof.Machine

/-- The two general registers (R20). There is no other (R23). -/
inductive Reg where
  /-- `A`, the accumulator. -/
  | a
  /-- `X`, the index register. -/
  | x
  deriving DecidableEq, Repr

/-- The two status flags (R28). -/
inductive Flag where
  /-- `Z`, Zero. -/
  | zero
  /-- `N`, Negative. -/
  | negative
  deriving DecidableEq, Repr

/-- The interpreter's status `istate` (R33). -/
inductive IState where
  /-- No stream present. -/
  | unloaded
  /-- A stream is loaded and the run has not ended without error. -/
  | running
  /-- The run ended by the halt opcode or by exhaustion of the stream. -/
  | halted
  deriving DecidableEq, Repr

/-- A bus address range, the half-open set of addresses from `start` up to and without `stop` (R54). The fields are
`Nat` because `end` needs 17 bits and because a host may ask for an ill-formed range, which the model refuses. -/
structure AddrRange where
  start : Nat
  stop : Nat
  deriving DecidableEq, Repr

/-- The two kinds of device the spec gives (R37). -/
inductive DeviceKind where
  | ram
  | rom
  deriving DecidableEq, Repr

/-- Byte storage: cells of an offset and a byte, offsets strictly rising. An unlisted offset was never written. -/
abbrev Memory := List Host.Cell

/-- A Ram or Rom device (R37). `id` and `draw` are the model's own (log entry 10): the host's name for the device, and
the draw that its never-written bytes are free values of (log entry 5). -/
structure Device where
  id : Nat
  kind : DeviceKind
  capacity : Nat
  draw : Nat
  store : Memory
  deriving DecidableEq, Repr

/-- A binding of the bus: a range and the device that owns it (R36). -/
structure Binding where
  range : AddrRange
  dev : Device
  deriving DecidableEq, Repr

/-- The state of the whole machine. -/
structure State where
  /-- Register `A` (R20). -/
  a : Byte
  /-- Register `X` (R20). -/
  x : Byte
  /-- The program counter, an index into the stream (R24). -/
  pc : Word16
  /-- The Zero flag (R28). -/
  z : Bool
  /-- The Negative flag (R28). -/
  n : Bool
  /-- The interpreter's status (R33). -/
  istate : IState
  /-- The loaded stream `S`, whose length is `L`, or no stream (R34). -/
  stream : Option (List Byte)
  /-- The bus's bindings, in the order they were attached (R36). -/
  bindings : List Binding
  /-- The devices created and not attached, which the host still holds (R192, R195). -/
  pool : List Device
  /-- The model's own counter of devices and of draws (log entry 10); no state of the hardware. -/
  fresh : Nat
  deriving DecidableEq, Repr

/-- The error kinds with their payloads (R160), and the seventh of the other Rom policy (R167). -/
inductive ErrorKind where
  /-- Raised by `interpret()` when no stream is loaded (R161). A step in `Unloaded` raises it. Safe: the spec's own. -/
  | noSourceLoaded
  /-- Raised by a step at dispatch for an opcode byte with no handler; carries that byte (R162). Safe: the spec's own. -/
  | unsupportedOpcode (byte : Byte)
  /-- Raised by a step whose operand byte is absent; carries `pc` at the failed read (R163). Safe: the spec's own. -/
  | expectedParameter (position : Word16)
  /-- Raised by a device for an offset it does not have; carries the device-local offset (R164). No instruction in scope
  raises it. Safe: the spec's own. -/
  | outOfRangeAccess (offset : Nat)
  /-- Raised by the bus for an address of no binding; carries that address (R165). No instruction in scope raises it.
  Safe: the spec's own. -/
  | unmappedAddress (address : Word16)
  /-- Raised by `attach` for a range that overlaps a binding's; carries the requested range (R166). No step raises it.
  Safe: the spec's own. -/
  | overlappingAttachment (range : AddrRange)
  /-- Raised by a Rom's in-range write under `ROM_WRITE_POLICY = fault` only (R167); not under the policy the spec
  decides (log entry 6). -/
  | readOnlyWrite (offset : Nat)
  deriving DecidableEq, Repr

/-- How a step stops with an error. -/
inductive Fault where
  /-- The step's outcome `fault e` (R11, R170): `error` is what `interpret()` returns to the host, and `after` is the
  state the step leaves, from which the host may go on (R123, R124). Raised by `Machine.step` with `noSourceLoaded`,
  `unsupportedOpcode` or `expectedParameter`. Safe: the machine itself stops here, and no state is lost. -/
  | raised (error : ErrorKind) (after : State)
  deriving DecidableEq, Repr

/-- What the model gives no meaning to. -/
inductive Refusal where
  /-- Raised by an arm of `exec` whose instruction has no meaning yet. No arm raises it. Safe. -/
  | notModelled (mnemonic : String)
  /-- Raised by `attach` for an empty, inverted or over-long range (R54, decision D15). Safe: the model stops. -/
  | illFormedRange (range : AddrRange)
  /-- Raised by `load(source)` for a source longer than `L_MAX` (R51, R111, decision D9). Safe: the model stops. -/
  | sourceTooLong (length : Nat)
  /-- Raised by a host operation on a device that the host does not hold: the bus owns it (R36, R192, item U24 of
  `93_implementation_defined.md`), or there is none of that name. Safe: the model stops. -/
  | deviceNotHeld (id : Nat)
  deriving DecidableEq, Repr

/-- The machine right after its creation (R40, R190, R191). The zeros of `A`, `X`, `pc`, `Z` and `N` are the spec's
decision D4 (DESIGN CHOICE, log entry 2); `fresh` is the model's own (DESIGN CHOICE, log entry 10). -/
def State.reset : State where
  a := 0
  x := 0
  pc := 0
  z := false
  n := false
  istate := .unloaded
  stream := none
  bindings := []
  pool := []
  fresh := 0

end Sys2Proof.Machine
end

