-- ==== Sys2Proof/Machine/Flags.lean ====
section
/-! DEFINITION. The flag update functions (spec/10_state.md R29, R30). -/

namespace Sys2Proof.Machine

/-- `update_zero_flag(value)` (R29): written in both cases. -/
def updateZeroFlag (value : Byte) (s : State) : State := { s with z := value == 0 }

/-- `update_negative_flag(value)` (R30): bit 7 of the value, written in both cases. -/
def updateNegativeFlag (value : Byte) (s : State) : State := { s with n := value.getLsbD 7 }

/-- The read of a flag (R41). -/
def getFlag (f : Flag) (s : State) : Bool :=
  match f with
  | .zero => s.z
  | .negative => s.n

end Sys2Proof.Machine
end

