-- ==== Sys2Proof/Machine/Ops.lean ====
section
/-! DEFINITION. The named operations over registers, the program counter, the stream and the interpreter's status, and
the one operation that raises an error. -/

namespace Sys2Proof.Machine

/-- The read of a register, `x[r]` (R9, R21). -/
def getReg (r : Reg) (s : State) : Byte :=
  match r with
  | .a => s.a
  | .x => s.x

/-- The write of a register with a byte, `x[r] <- v` (R9). No flag changes (R21, R31). -/
def setReg (r : Reg) (v : Byte) (s : State) : State :=
  match r with
  | .a => { s with a := v }
  | .x => { s with x := v }

/-- The host's `set(r, v)` (R21): the value wraps to 8 bits. -/
def hostSetReg (r : Reg) (v : Nat) (s : State) : State := setReg r (BitVec.ofNat 8 v) s

/-- An instruction's register write with its flag side effect: the flags follow the register's new value
(R31, R140, R145, R153). -/
def writeRegFlags (r : Reg) (v : Byte) (s : State) : State :=
  let t := setReg r v s
  updateNegativeFlag (getReg r t) (updateZeroFlag (getReg r t) t)

/-- The program counter's `increment` (R25): it wraps at the 16-bit boundary. -/
def incPc (s : State) : State := { s with pc := s.pc + 1 }

/-- The bytes of the loaded stream; none where there is no stream. -/
def streamBytes (s : State) : List Byte := s.stream.getD []

/-- `L`, the length of the loaded stream (R34). -/
def streamLength (s : State) : Nat := (streamBytes s).length

/-- `StreamRead(i)` (R52): absent iff `i >= L`. -/
def streamRead (s : State) (i : Word16) : Option Byte := (streamBytes s)[i.toNat]?

/-- The Interpreter's `load(source)` for an admitted source (R111): the Cpu is not touched, `pc` included. -/
def loadSource (source : List Byte) (s : State) : State :=
  { s with stream := some source, istate := .running }

/-- A source that `load` admits (R51, R111). -/
def sourceWf (source : List Byte) : Bool := decide (source.length ≤ Config.streamMax)

/-- `halt` (R9, R113, R114): the run ends without error; nothing else changes. -/
def haltRun (s : State) : State := { s with istate := .halted }

/-- ERROR ENTRY, the one operation every error of a step goes through (R170): the error is the step's result and `s`,
the state at the point of the raise, is what it leaves. Nothing is saved, undone, masked or latched, control goes to no
handler of the machine, and `istate` stays `Running`. There is no return from it (R173): the host goes on from the
state left, by another `interpret()` (R124). -/
def raise (e : ErrorKind) (s : State) : Host.Outcome State Fault Refusal := .fault (.raised e s)

/-- The dispatch of an opcode byte with no handler (R115, R116, R162): the cycle has advanced `pc` before it
(`PC_ADVANCE_BEFORE_DISPATCH = true`, decision D7, log entry 4). -/
def raiseUnsupportedOpcode (b : Byte) (s : State) : Host.Outcome State Fault Refusal :=
  raise (.unsupportedOpcode b) (incPc s)

/-- The operand fetch of an instruction whose operand byte is absent (R117, R163): the cycle has advanced `pc` past
the opcode, and the error carries that `pc`. -/
def raiseMissingOperand (s : State) : Host.Outcome State Fault Refusal :=
  raise (.expectedParameter (incPc s).pc) (incPc s)

/-- The ordinal of an error kind (R160, decision D19), for reference only. -/
def errorCode : ErrorKind → Option Nat
  | .noSourceLoaded => some 1
  | .unsupportedOpcode _ => some 2
  | .expectedParameter _ => some 3
  | .outOfRangeAccess _ => some 4
  | .unmappedAddress _ => some 5
  | .overlappingAttachment _ => some 6
  | .readOnlyWrite _ => none

/-- The bytes of a stream with one byte put at an index, zeros filling the stream up to it. -/
def placeByte (i : Nat) (b : Byte) (bytes : List Byte) : List Byte :=
  if i < bytes.length then bytes.set i b
  else bytes ++ List.replicate (i - bytes.length) 0 ++ [b]

/-- A state in which the bytes of a table word are the next ones the engine fetches: the first byte at `pc` and the
second at `pc + 1` modulo 65536 (R92), and the interpreter is running. It stands for the host's `load` (log entry 1). -/
def placeTableWord (s : State) (nbits w : Nat) : State :=
  { s with
    istate := .running
    stream := some (placeByte (s.pc + 1).toNat (tableByte nbits w 1)
      (placeByte s.pc.toNat (tableByte nbits w 0) (streamBytes s))) }

end Sys2Proof.Machine
end

