-- ==== Sys2Proof/Machine/Operands.lean ====
section
/-! DEFINITION. Fetching from the instruction stream: the bytes at the program counter and the operand fetch. The only
operand form is the immediate byte (spec/30_encoding.md R93). -/

namespace Sys2Proof.Machine

/-- The bytes an instruction at `pc` may take, as many of them as are present: the one at `pc` and the one at
`pc + 1` modulo 65536 (R27, R92). A read of the stream has no effect (R52), and decoding looks at the second byte only
when the opcode needs it (R97). -/
def fetchWindow (s : State) : List Byte :=
  match streamRead s s.pc with
  | none => []
  | some b => b :: (streamRead s (s.pc + 1)).toList

/-- `FetchOperand()` (R117): the byte at `pc`, with `pc` advanced past it; or `ExpectedParameter(pc)`, with `pc` not
advanced. -/
def fetchOperand (s : State) : Except ErrorKind (Byte × State) :=
  match streamRead s s.pc with
  | none => .error (.expectedParameter s.pc)
  | some v => .ok (v, incPc s)

/-- The 16-bit operand of an added instruction (R70, R155): the first fetched byte is bits 7:0, the second bits 15:8
(decision D14, PRESUMED from the 6502 family, log entry 17). No instruction in scope has one. -/
def wordOfBytes (low high : Byte) : Word16 := high ++ low

end Sys2Proof.Machine
end

