-- ==== Sys2Proof/Machine/Halt.lean ====
section
/-! DEFINITION. The halt instruction (spec/40_engine_cycle_and_halt.md R120). -/

namespace Sys2Proof.Machine

/-- `HLT` (R114, R120): the run ends without error; `pc` still holds the index of the halt byte. -/
def execHlt (s : State) : Host.Outcome State Fault Refusal := .next (haltRun s)

end Sys2Proof.Machine
end

