-- ==== Sys2Proof/Machine/Load.lean ====
section
/-! DEFINITION. The load family (spec/41_load_accumulator.md). -/

namespace Sys2Proof.Machine

/-- `LDA #imm8` (R140), from the state in which `pc` is at the opcode: `pc` passes the opcode (R115) and the operand
(R117), then `A` and both flags are written. The absent operand is no `Instr`: the step raises it
(`raiseMissingOperand`). -/
def execLda (imm8 : Byte) (s : State) : Host.Outcome State Fault Refusal :=
  .next (writeRegFlags .a imm8 (incPc (incPc s)))

end Sys2Proof.Machine
end

