-- ==== Sys2Proof/Machine/Transfer.lean ====
section
/-! DEFINITION. The register transfer family (spec/42_register_transfer.md). -/

namespace Sys2Proof.Machine

/-- `TAX` (R145), from the state in which `pc` is at the opcode: `pc` passes the opcode (R115), then `X` takes the
value of `A` and both flags follow the new `X`. -/
def execTax (s : State) : Host.Outcome State Fault Refusal :=
  .next (writeRegFlags .x (getReg .a s) (incPc s))

end Sys2Proof.Machine
end

