-- ==== Sys2Proof/Machine/Dispatch.lean ====
section
/-! DEFINITION. The dispatch of an instruction to its meaning (R94, R116), one arm for each row of the opcode map. -/

namespace Sys2Proof.Machine

def exec (i : Instr) (s : State) : Host.Outcome State Fault Refusal :=
  match i with
  | .hlt => Sys2Proof.Machine.execHlt s
  | .lda imm8 => Sys2Proof.Machine.execLda imm8 s
  | .tax => Sys2Proof.Machine.execTax s

end Sys2Proof.Machine
end

