-- ==== Sys2Proof/Machine/Step.lean ====
section
/-! DEFINITION. One step of the engine (spec/40_engine_cycle_and_halt.md R110, R119). -/

namespace Sys2Proof.Machine

/-- One step. In `Unloaded` a call of `interpret()` raises `NoSourceLoaded` (R161). In `Halted` it returns at once and
nothing changes (R110, decision D8). In `Running` the engine does one pass of its cycle (R119): the natural halt where
no byte is at `pc` (R113), else the instruction there, or the error that its bytes raise. The spec's outcome `halt` is
a next state whose status is `Halted`. -/
def step (s : State) : Host.Outcome State Fault Refusal :=
  match s.istate with
  | .unloaded => raise .noSourceLoaded s
  | .halted => .next s
  | .running =>
    match decode (fetchWindow s) with
    | .ok (i, _) => exec i s
    | .error .noByte => .next (haltRun s)
    | .error (.unsupportedOpcode b) => raiseUnsupportedOpcode b s
    | .error .missingOperand => raiseMissingOperand s

/-- The state in which the very next step fetches and runs the instruction of a table word (log entry 1). -/
def State.withFetchWord (s : State) (nbits w : Nat) : State := placeTableWord s nbits w

end Sys2Proof.Machine
end

