-- ==== Sys2Proof/Machine/Devices.lean ====
section
/-! DEFINITION. Byte storage and the Ram and Rom devices (spec/20_memory.md R55, R61 to R66). -/

namespace Sys2Proof.Machine

/-- What an unlisted offset reads as in storage: no value, since nothing has written it. `Device.byteAt` makes a free
value of it (log entry 5). -/
def Memory.unlisted : Option Byte := none

/-- The byte a cell of storage holds. -/
def Memory.read : Memory → Nat → Option Byte
  | [], _ => Memory.unlisted
  | (k, b) :: m, i => if k = i then some b else Memory.read m i

/-- Storage with one byte written, in canonical form. A written byte is always listed: none of them is the value an
unlisted offset reads as. -/
def Memory.write : Memory → Nat → Byte → Memory
  | [], i, b => [(i, b)]
  | (k, c) :: m, i, b =>
    if i < k then (i, b) :: (k, c) :: m
    else if i = k then (i, b) :: m
    else (k, c) :: Memory.write m i b

/-- Storage with a sequence of bytes written from an offset up. -/
def Memory.writeAll : Memory → Nat → List Byte → Memory
  | m, _, [] => m
  | m, i, b :: bs => Memory.writeAll (Memory.write m i b) (i + 1) bs

/-- The canonical form: offsets strictly rising. -/
abbrev Memory.wf (m : Memory) : Prop := (m.map Prod.fst).Pairwise (· < ·)

/-- `ROM_WRITE_POLICY` (R5, R63, decision D11): `ignore`. DESIGN CHOICE of the spec, log entry 6, unsafe. -/
def romWritePolicy : RomWritePolicy := .ignore

/-- The capacity of a device type, a constant (R5, R37). -/
def DeviceKind.capacity : DeviceKind → Nat
  | .ram => Config.ramCapacity
  | .rom => Config.romCapacity

/-- A device as it is created (R40, R190): its contents are free values until they are written. -/
def newDevice (id : Nat) (kind : DeviceKind) (capacity draw : Nat) : Device :=
  { id := id, kind := kind, capacity := capacity, draw := draw, store := [] }

/-- A device's report of its size (R55). -/
def Device.size (d : Device) : Nat := d.capacity

/-- `store[offset]`: the byte last written, or the free value of a byte that nothing has written (D17). -/
def Device.byteAt (d : Device) (offset : Nat) : Byte :=
  (Memory.read d.store offset).getD (Config.initByte d.draw offset)

/-- `read_byte(offset)` of a Ram or a Rom (R61). -/
def Device.readByte (d : Device) (offset : Nat) : Except ErrorKind Byte :=
  if offset < d.capacity then .ok (d.byteAt offset) else .error (.outOfRangeAccess offset)

/-- `write_byte(offset, byte)` under a given policy: of a Ram (R62) and of a Rom (R63). An offset outside the device is
rejected whatever the policy. -/
def Device.writeByteUnder (policy : RomWritePolicy) (d : Device) (offset : Nat) (b : Byte) : Except ErrorKind Device :=
  if offset < d.capacity then
    match d.kind, policy with
    | .ram, _ => .ok { d with store := Memory.write d.store offset b }
    | .rom, .ignore => .ok d
    | .rom, .fault => .error (.readOnlyWrite offset)
  else .error (.outOfRangeAccess offset)

/-- `write_byte(offset, byte)` (R62, R63). -/
def Device.writeByte (d : Device) (offset : Nat) (b : Byte) : Except ErrorKind Device :=
  Device.writeByteUnder romWritePolicy d offset b

/-- `load(offset, data)` (R64): all of it or nothing; the payload is the first offset that does not exist (D13). -/
def Device.load (d : Device) (offset : Nat) (data : List Byte) : Except ErrorKind Device :=
  if d.capacity < offset + data.length then .error (.outOfRangeAccess (max offset d.capacity))
  else .ok { d with store := Memory.writeAll d.store offset data }

/-- `dump()` (R65): a copy of all the bytes in offset order. -/
def Device.dump (d : Device) : List Byte := (List.range d.capacity).map d.byteAt

/-- The reset of a device, which is its re-creation (R190, decision D29): it keeps nothing of its past, and its
contents are unspecified again. -/
def Device.recreate (d : Device) (draw : Nat) : Device := newDevice d.id d.kind d.capacity draw

end Sys2Proof.Machine
end

