-- ==== Sys2Proof/Machine/Bus.lean ====
section
/-! DEFINITION. The bus router (spec/20_memory.md R54 to R60, R67 to R69). -/

namespace Sys2Proof.Machine

/-- A well-formed range (R54). -/
def rangeWf (r : AddrRange) : Bool := decide (r.start < r.stop) && decide (r.stop ≤ Config.busTop)

/-- The range contains the address (R54). -/
def AddrRange.contains (r : AddrRange) (addr : Word16) : Bool :=
  decide (r.start ≤ addr.toNat) && decide (addr.toNat < r.stop)

/-- Two ranges share an address (R57). -/
def AddrRange.overlaps (r q : AddrRange) : Bool := decide (r.start < q.stop) && decide (q.start < r.stop)

/-- `route(addr)` (R58). -/
def route (bs : List Binding) (addr : Word16) : Option Binding := bs.find? fun b => b.range.contains addr

/-- The bindings with the device that owns an address replaced. -/
def replaceRouted : List Binding → Word16 → Device → List Binding
  | [], _, _ => []
  | b :: bs, addr, d =>
    if b.range.contains addr then { b with dev := d } :: bs else b :: replaceRouted bs addr d

/-- `attach(range, device)` for a well-formed range (R56): the bindings with the new one last, or
`OverlappingAttachment` with the requested range. The device's capacity is not looked at (R66). -/
def attachBinding (r : AddrRange) (d : Device) (bs : List Binding) : Except ErrorKind (List Binding) :=
  if bs.any fun b => r.overlaps b.range then .error (.overlappingAttachment r)
  else .ok (bs ++ [{ range := r, dev := d }])

/-- `Bus.read_byte(addr)` (R59), and `MemRead(addr, 1)` of a handler (R68). -/
def memRead (addr : Word16) (s : State) : Except ErrorKind Byte :=
  match route s.bindings addr with
  | none => .error (.unmappedAddress addr)
  | some b => b.dev.readByte (addr.toNat - b.range.start)

/-- `Bus.write_byte(addr, byte)` (R60), and `MemWrite(addr, 1, v)` of a handler (R69). -/
def memWrite (addr : Word16) (v : Byte) (s : State) : Except ErrorKind State :=
  match route s.bindings addr with
  | none => .error (.unmappedAddress addr)
  | some b =>
    match b.dev.writeByte (addr.toNat - b.range.start) v with
    | .error e => .error e
    | .ok d => .ok { s with bindings := replaceRouted s.bindings addr d }

end Sys2Proof.Machine
end

