-- ==== Sys2Proof/Machine/Cycle.lean ====
section
/-! DEFINITION. The step as the spec's own pseudocode writes it (spec/40_engine_cycle_and_halt.md R113 to R119), with the
operand fetch inside the handler and with the three outcomes of R11. `Machine.step` is the model; this is the clear
text that it is held against. -/

namespace Sys2Proof.Machine

/-- The outcome of a step, with the state it leaves (R11). -/
inductive StepResult where
  /-- The state changed and the run continues. -/
  | next (s : State)
  /-- The run ends without error. -/
  | halt (s : State)
  /-- The run ends with an error. -/
  | fault (e : ErrorKind) (s : State)
  deriving DecidableEq, Repr

/-- `step()` of R119, line by line. Its `halt` arm of `decodeOpcode` is never reached: the halt test before it has taken
that byte (R116). -/
def cycle (s : State) : StepResult :=
  match streamRead s s.pc with
  | none => .halt (haltRun s)
  | some b =>
    if b = opHlt then .halt (haltRun s)
    else
      let s1 := incPc s
      match decodeOpcode b with
      | .halt => .halt (haltRun s)
      | .ldaImm =>
        match fetchOperand s1 with
        | .error e => .fault e s1
        | .ok (v, s2) =>
          let s3 := setReg .a v s2
          .next (updateNegativeFlag (getReg .a s3) (updateZeroFlag (getReg .a s3) s3))
      | .tax =>
        let s2 := setReg .x (getReg .a s1) s1
        .next (updateNegativeFlag (getReg .x s2) (updateZeroFlag (getReg .x s2) s2))
      | .unsupported c => .fault (.unsupportedOpcode c) s1

/-- The outcome of R11 as the host's interface names it: `halt` is a next state, whose status is `Halted`. -/
def StepResult.toOutcome : StepResult → Host.Outcome State Fault Refusal
  | .next s => .next s
  | .halt s => .next s
  | .fault e s => raise e s

end Sys2Proof.Machine
end

