-- ==== Sys2Proof/Machine/Extension.lean ====
section
/-! DEFINITION. The mechanism for adding instructions (spec/43_extension_mechanism.md). A handler is written in the
vocabulary that R151 allows and in no other, so that what R151 forbids cannot be written; a table maps opcode bytes to
handlers; and the cycle runs over any table. The instructions in scope are the table `baseTable`. -/

namespace Sys2Proof.Machine

/-- A handler: the actions R151 allows, in order. The continuation of a read takes the byte read (log entry 18). -/
inductive Handler where
  /-- The handler ends; the step's outcome is `next` (R118). -/
  | done
  /-- `FetchOperand()` (R117), the only way `pc` moves in a handler. -/
  | fetch (k : Byte → Handler)
  /-- A read of `A` or `X`. -/
  | get (r : Reg) (k : Byte → Handler)
  /-- A write of `A` or `X`. -/
  | set (r : Reg) (v : Byte) (k : Handler)
  /-- `update_zero_flag(v)` (R29). -/
  | setZero (v : Byte) (k : Handler)
  /-- `update_negative_flag(v)` (R30). -/
  | setNegative (v : Byte) (k : Handler)
  /-- `MemRead(addr, 1)` (R68, R154). -/
  | load (addr : Word16) (k : Byte → Handler)
  /-- `MemWrite(addr, 1, v)` (R69, R154). -/
  | store (addr : Word16) (v : Byte) (k : Handler)

/-- A handler at work (R151, R152): its actions in order; a raise ends it and undoes nothing. -/
def runHandler : Handler → State → StepResult
  | .done, s => .next s
  | .fetch k, s =>
    match fetchOperand s with
    | .error e => .fault e s
    | .ok (v, t) => runHandler (k v) t
  | .get r k, s => runHandler (k (getReg r s)) s
  | .set r v k, s => runHandler k (setReg r v s)
  | .setZero v k, s => runHandler k (updateZeroFlag v s)
  | .setNegative v k, s => runHandler k (updateNegativeFlag v s)
  | .load addr k, s =>
    match memRead addr s with
    | .error e => .fault e s
    | .ok v => runHandler (k v) s
  | .store addr v k, s =>
    match memWrite addr v s with
    | .error e => .fault e s
    | .ok t => runHandler k t

/-- The handler has no fallible action left: no operand fetch and no bus access (R152). -/
def Handler.infallible : Handler → Prop
  | .done => True
  | .fetch _ => False
  | .get _ k => ∀ b, (k b).infallible
  | .set _ _ k => k.infallible
  | .setZero _ k => k.infallible
  | .setNegative _ k => k.infallible
  | .load _ _ => False
  | .store _ _ _ => False

/-- The order R152 asks for: all fallible actions come first, and after a write there is none. -/
def Handler.orderly : Handler → Prop
  | .done => True
  | .fetch k => ∀ b, (k b).orderly
  | .get _ k => ∀ b, (k b).orderly
  | .set _ _ k => k.infallible
  | .setZero _ k => k.infallible
  | .setNegative _ k => k.infallible
  | .load _ k => ∀ b, (k b).orderly
  | .store _ _ k => k.infallible

/-- The end of a handler with a flag side effect: the register is written, then both flags from its new value
(R153). -/
def Handler.writeFlags (r : Reg) (v : Byte) : Handler :=
  .set r v (.get r fun w => .setZero w (.setNegative w .done))

/-- A 16-bit operand (R155): two operand fetches, the low byte first (decision D14, log entry 17). -/
def Handler.fetchWord (k : Word16 → Handler) : Handler :=
  .fetch fun low => .fetch fun high => k (wordOfBytes low high)

/-- The handler of load-accumulator-immediate (R140). -/
def ldaHandler : Handler := .fetch fun v => .writeFlags .a v

/-- The handler of transfer-accumulator-to-index (R145). -/
def taxHandler : Handler := .get .a fun v => .writeFlags .x v

/-- An opcode table: rows of an opcode byte and its handler (R94, R150). -/
abbrev OpcodeTable := List (Byte × Handler)

/-- The handler of a byte; where there is none the table's default entry is the error (R97, R150). In an ill-formed table,
two of whose rows claim the byte, the first row is taken: R157 says only that such a table is ill-formed (DESIGN CHOICE,
log entry 27, unsafe). -/
def OpcodeTable.lookup (t : OpcodeTable) (b : Byte) : Option Handler :=
  (t.find? fun row => row.1 == b).map Prod.snd

/-- A well-formed table: no two rows claim one byte, and none the halt byte (R150, R157). -/
def OpcodeTable.wf (t : OpcodeTable) : Bool := opcodeRowsWf opHlt (t.map Prod.fst)

/-- The addition of an instruction (R98, R150): one more row, for a byte not yet in the table and not `OP_HLT`; there is
no other addition. -/
def OpcodeTable.extend (t : OpcodeTable) (b : Byte) (h : Handler) : Option OpcodeTable :=
  if b = opHlt ∨ b ∈ t.map Prod.fst then none else some (t ++ [(b, h)])

/-- The handlers in scope (R94); the halt byte is no entry of the table (R96, R120). -/
def baseTable : OpcodeTable := [(opLdaImm, ldaHandler), (opTax, taxHandler)]

/-- The cycle over any table (R113 to R118, R150): the fetch, the halt test and the advance come before the handler is
entered, whatever the table. No well-formedness of the table is asked for (DESIGN CHOICE, log entry 27, unsafe): of two
rows for one byte the first runs, and a row for the halt byte is never reached. -/
def cycleWith (t : OpcodeTable) (s : State) : StepResult :=
  match streamRead s s.pc with
  | none => .halt (haltRun s)
  | some b =>
    if b = opHlt then .halt (haltRun s)
    else
      match t.lookup b with
      | none => .fault (.unsupportedOpcode b) (incPc s)
      | some h => runHandler h (incPc s)

/-- One step of the machine with the table `t` for its handlers: the statuses as in `step` (R110, R161), and in `Running`
one pass of the cycle over that table. -/
def stepWith (t : OpcodeTable) (s : State) : Host.Outcome State Fault Refusal :=
  match s.istate with
  | .unloaded => raise .noSourceLoaded s
  | .halted => .next s
  | .running => (cycleWith t s).toOutcome

end Sys2Proof.Machine
end

