-- ==== Sys2Proof/Machine/HostInterface.lean ====
section
/-! DEFINITION. The run and the host's operations (spec/40_engine_cycle_and_halt.md R110 to R112, R122 to R124;
spec/70_reset_and_hazards.md R190 to R195). Both are written over any step, so that the machine in scope (`interpret`,
`hostStep`) and one with added instructions (`interpretWith`, `hostStepWith`; R68, R69, R154, R168) run by the same
text. -/

namespace Sys2Proof.Machine

/-- How a run ends (R112, R122), and the model's own `unfinished` for a run that has not ended within the steps asked
for (log entry 15). -/
inductive RunResult where
  /-- The run ended by a halt; there is no payload (decision D25). -/
  | ok (s : State)
  /-- The run ended with an error, and left the state `s` (R123). -/
  | error (e : ErrorKind) (s : State)
  /-- The run has not ended yet; no result of the hardware. -/
  | unfinished (s : State)
  /-- A step was refused; no step is. -/
  | refused (r : Refusal)
  deriving DecidableEq, Repr

/-- The loop of `interpret()` over a step (R112), for at most `fuel` steps: an error of a step is the run's result and no
other step is started (R170). -/
def runLoopOf (next : State → Host.Outcome State Fault Refusal) : Nat → State → RunResult
  | 0, s => .unfinished s
  | fuel + 1, s =>
    match next s with
    | .next t => if t.istate = .halted then .ok t else runLoopOf next fuel t
    | .fault (.raised e t) => .error e t
    | .refused r => .refused r

/-- `interpret()` over a step (R110, R112, R161), for at most `fuel` steps. -/
def interpretOf (next : State → Host.Outcome State Fault Refusal) (fuel : Nat) (s : State) : RunResult :=
  match s.istate with
  | .unloaded => .error .noSourceLoaded s
  | .halted => .ok s
  | .running => runLoopOf next fuel s

/-- The loop of `interpret()` (R112). -/
def runLoop (fuel : Nat) (s : State) : RunResult := runLoopOf step fuel s

/-- `interpret()` (R110, R112, R161). -/
def interpret (fuel : Nat) (s : State) : RunResult := interpretOf step fuel s

/-- `interpret()` of the machine with the table `t` for its handlers: an error that a handler's operand fetch or bus access
raises ends the run, and the run returns it (R68, R69, R154, R168). -/
def interpretWith (t : OpcodeTable) (fuel : Nat) (s : State) : RunResult := interpretOf (stepWith t) fuel s

/-- The reset of the Cpu: `A`, `X`, `pc`, `Z` and `N` (R40, R190). -/
def resetCpu (s : State) : State :=
  { s with a := State.reset.a, x := State.reset.x, pc := State.reset.pc, z := State.reset.z, n := State.reset.n }

/-- The reset of the Interpreter: `istate` and the stream (R40, R190). -/
def resetInterpreter (s : State) : State :=
  { s with istate := State.reset.istate, stream := State.reset.stream }

/-- The reset of the Bus: its bindings (R40, R190). The devices it owned are gone with it (R36, log entry 16). -/
def resetBus (s : State) : State := { s with bindings := State.reset.bindings }

/-- The device of that name which the host holds. -/
def poolDevice (id : Nat) (s : State) : Option Device := s.pool.find? fun d => d.id == id

/-- The device of that name, the host's or the bus's. -/
def anyDevice (id : Nat) (s : State) : Option Device :=
  (s.pool ++ s.bindings.map Binding.dev).find? fun d => d.id == id

/-- The state with the host's device of that name replaced. -/
def setPoolDevice (id : Nat) (d : Device) (s : State) : State :=
  { s with pool := s.pool.map fun c => if c.id = id then d else c }

/-- The reset of the device of that name, the host's or the bus's (R190, log entry 16). -/
def resetDevice (id : Nat) (s : State) : State :=
  let again := fun (c : Device) => if c.id = id then c.recreate s.fresh else c
  { s with
    pool := s.pool.map again
    bindings := s.bindings.map fun b => { b with dev := again b.dev }
    fresh := s.fresh + 1 }

/-- The creation of a device, which the host then holds (R192); its type fixes its capacity (R37). -/
def createDevice (kind : DeviceKind) (s : State) : State :=
  { s with pool := s.pool ++ [newDevice s.fresh kind kind.capacity s.fresh], fresh := s.fresh + 1 }

/-- Every operation the host has (R195). -/
inductive HostOp where
  | resetCpu
  | resetInterpreter
  | resetBus
  | resetDevice (id : Nat)
  | createDevice (kind : DeviceKind)
  | getReg (r : Reg)
  | setReg (r : Reg) (v : Nat)
  | updateZeroFlag (v : Byte)
  | updateNegativeFlag (v : Byte)
  | getPc
  | incrementPc
  | getFlag (f : Flag)
  | loadSource (source : List Byte)
  | interpret (fuel : Nat)
  | attach (range : AddrRange) (id : Nat)
  | busRead (addr : Word16)
  | busWrite (addr : Word16) (v : Byte)
  | deviceRead (id offset : Nat)
  | deviceWrite (id offset : Nat) (v : Byte)
  | deviceLoad (id offset : Nat) (data : List Byte)
  | deviceDump (id : Nat)
  deriving DecidableEq, Repr

/-- What an operation that succeeds answers. -/
inductive Reply where
  | unit
  | byte (b : Byte)
  | word (w : Word16)
  | flag (f : Bool)
  | bytes (bs : List Byte)
  | device (id : Nat)
  deriving DecidableEq, Repr

/-- The outcome of a host operation, with the state it leaves. -/
inductive HostResult where
  | ok (reply : Reply) (s : State)
  | error (e : ErrorKind) (s : State)
  /-- A run that has not ended within its steps (log entry 15). -/
  | unfinished (s : State)
  | refused (r : Refusal)
  deriving DecidableEq, Repr

/-- The answer of an operation that reads a byte: the state does not change. -/
def answerByte (s : State) : Except ErrorKind Byte → HostResult
  | .ok b => .ok (.byte b) s
  | .error e => .error e s

/-- The answer of an operation on a device the host holds: where it succeeds the device is replaced. -/
def answerDevice (id : Nat) (s : State) : Except ErrorKind Device → HostResult
  | .ok d => .ok .unit (setPoolDevice id d s)
  | .error e => .error e s

/-- `attach` (R54, R56, R166): the host no longer holds a device it has attached, and still holds one it could not. -/
def hostAttach (r : AddrRange) (id : Nat) (s : State) : HostResult :=
  if rangeWf r then
    match poolDevice id s with
    | none => .refused (.deviceNotHeld id)
    | some d =>
      match attachBinding r d s.bindings with
      | .error e => .error e s
      | .ok bs => .ok .unit { s with bindings := bs, pool := s.pool.filter fun c => c.id != id }
  else .refused (.illFormedRange r)

/-- One operation of the host (R195), between runs (R80, log entry 14), where `interpret()` is `run`. -/
def hostStepOf (run : Nat → State → RunResult) (op : HostOp) (s : State) : HostResult :=
  match op with
  | .resetCpu => .ok .unit (Machine.resetCpu s)
  | .resetInterpreter => .ok .unit (Machine.resetInterpreter s)
  | .resetBus => .ok .unit (Machine.resetBus s)
  | .resetDevice id =>
    match anyDevice id s with
    | none => .refused (.deviceNotHeld id)
    | some _ => .ok .unit (Machine.resetDevice id s)
  | .createDevice kind => .ok (.device s.fresh) (Machine.createDevice kind s)
  | .getReg r => .ok (.byte (Machine.getReg r s)) s
  | .setReg r v => .ok .unit (hostSetReg r v s)
  | .updateZeroFlag v => .ok .unit (Machine.updateZeroFlag v s)
  | .updateNegativeFlag v => .ok .unit (Machine.updateNegativeFlag v s)
  | .getPc => .ok (.word s.pc) s
  | .incrementPc => .ok .unit (incPc s)
  | .getFlag f => .ok (.flag (Machine.getFlag f s)) s
  | .loadSource source =>
    if sourceWf source then .ok .unit (Machine.loadSource source s) else .refused (.sourceTooLong source.length)
  | .interpret fuel =>
    match run fuel s with
    | .ok t => .ok .unit t
    | .error e t => .error e t
    | .unfinished t => .unfinished t
    | .refused r => .refused r
  | .attach r id => hostAttach r id s
  | .busRead addr => answerByte s (memRead addr s)
  | .busWrite addr v =>
    match memWrite addr v s with
    | .error e => .error e s
    | .ok t => .ok .unit t
  | .deviceRead id offset =>
    match poolDevice id s with
    | none => .refused (.deviceNotHeld id)
    | some d => answerByte s (d.readByte offset)
  | .deviceWrite id offset v =>
    match poolDevice id s with
    | none => .refused (.deviceNotHeld id)
    | some d => answerDevice id s (d.writeByte offset v)
  | .deviceLoad id offset data =>
    match poolDevice id s with
    | none => .refused (.deviceNotHeld id)
    | some d => answerDevice id s (d.load offset data)
  | .deviceDump id =>
    match anyDevice id s with
    | none => .refused (.deviceNotHeld id)
    | some d => .ok (.bytes d.dump) s

/-- One operation of the host on the machine (R195). -/
def hostStep (op : HostOp) (s : State) : HostResult := hostStepOf Machine.interpret op s

/-- One operation of the host on the machine with the table `t` for its handlers (R150, R195). -/
def hostStepWith (t : OpcodeTable) (op : HostOp) (s : State) : HostResult := hostStepOf (interpretWith t) op s

end Sys2Proof.Machine
end

