-- ==== Sys2Proof/Safety.lean ====
section
/-! DEFINITION. The invariants of the machine and the terms its claims use. -/

namespace Sys2Proof.Machine

/-- Every device of the machine, the host's and the bus's. -/
def State.devices (s : State) : List Device := s.pool ++ s.bindings.map Binding.dev

/-- A device's storage is canonical and lies inside its capacity (R37). -/
structure Device.Inv (d : Device) : Prop where
  canonical : Memory.wf d.store
  inside : ∀ c ∈ d.store, c.1 < d.capacity

/-- The invariant of the machine. -/
structure State.Inv (s : State) : Prop where
  /-- There is no stream exactly in `Unloaded` (R33, R34). -/
  unloaded_iff : s.istate = .unloaded ↔ s.stream = none
  /-- The stream is no longer than `L_MAX` (R34, R51). -/
  length_le : streamLength s ≤ Config.streamMax
  /-- Every attached range is well-formed (R54). -/
  ranges : ∀ b ∈ s.bindings, rangeWf b.range = true
  /-- No two attached ranges share an address (R56, R58). -/
  apart : s.bindings.Pairwise fun b c => b.range.overlaps c.range = false
  /-- Every device's storage is as it should be (R37). -/
  stores : ∀ d ∈ s.devices, d.Inv
  /-- No two devices have one name, and every name has been given (log entry 10). -/
  names : (s.devices.map Device.id).Nodup ∧ ∀ d ∈ s.devices, d.id < s.fresh ∧ d.draw < s.fresh

/-- Every device has the capacity of its type (R37): no two Rams differ in size, and no two Roms. -/
def State.CapacitiesFixed (s : State) : Prop := ∀ d ∈ s.devices, d.capacity = d.kind.capacity

/-- Zero and Negative are not both set (R32). Every instruction keeps it; a host may break it with two flag updates. -/
def State.FlagsExclusive (s : State) : Prop := (s.z && s.n) = false

/-- Everything but the Cpu and the interpreter's status is the same: the stream, the bus, the devices. -/
def State.SameOutside (s t : State) : Prop :=
  t.stream = s.stream ∧ t.bindings = s.bindings ∧ t.pool = s.pool ∧ t.fresh = s.fresh

/-- The state `s` with the bus and the devices of `u`. -/
def State.withOutside (s u : State) : State :=
  { s with bindings := u.bindings, pool := u.pool, fresh := u.fresh }

/-- An outcome with the bus and the devices of `u` in the state it leaves. -/
def outcomeWithOutside (o : Host.Outcome State Fault Refusal) (u : State) : Host.Outcome State Fault Refusal :=
  match o with
  | .next t => .next (t.withOutside u)
  | .fault (.raised e t) => .fault (.raised e (t.withOutside u))
  | .refused r => .refused r

/-- The state a run result leaves, where it leaves one. -/
def RunResult.after : RunResult → Option State
  | .ok s => some s
  | .error _ s => some s
  | .unfinished s => some s
  | .refused _ => none

/-- The state a host operation leaves, where it leaves one. -/
def HostResult.after : HostResult → Option State
  | .ok _ s => some s
  | .error _ s => some s
  | .unfinished s => some s
  | .refused _ => none

/-- The state a step of R11 leaves. -/
def StepResult.after : StepResult → State
  | .next s => s
  | .halt s => s
  | .fault _ s => s

/-- The state a step leaves, where it leaves one: an error leaves a state too (R123). -/
def stateAfter : Host.Outcome State Fault Refusal → Option State
  | .next s => some s
  | .fault (.raised _ s) => some s
  | .refused _ => none

/-- How many operand fetches of a handler's run succeed: those before its end or its first error. -/
def Handler.fetchCount : Handler → State → Nat
  | .done, _ => 0
  | .fetch k, s =>
    match fetchOperand s with
    | .error _ => 0
    | .ok (v, t) => (k v).fetchCount t + 1
  | .get r k, s => (k (getReg r s)).fetchCount s
  | .set r v k, s => k.fetchCount (setReg r v s)
  | .setZero v k, s => k.fetchCount (updateZeroFlag v s)
  | .setNegative v k, s => k.fetchCount (updateNegativeFlag v s)
  | .load addr k, s =>
    match memRead addr s with
    | .error _ => 0
    | .ok v => (k v).fetchCount s
  | .store addr v k, s =>
    match memWrite addr v s with
    | .error _ => 0
    | .ok t => k.fetchCount t

/-- The handler references no data memory: it has no bus access (R154). -/
def Handler.busFree : Handler → Prop
  | .done => True
  | .fetch k => ∀ b, (k b).busFree
  | .get _ k => ∀ b, (k b).busFree
  | .set _ _ k => k.busFree
  | .setZero _ k => k.busFree
  | .setNegative _ k => k.busFree
  | .load _ _ => False
  | .store _ _ _ => False

/-- An error kind that a run over handlers without bus accesses may return (R168). -/
def ErrorKind.returnedByRun : ErrorKind → Prop
  | .noSourceLoaded | .unsupportedOpcode _ | .expectedParameter _ => True
  | .outOfRangeAccess _ | .unmappedAddress _ | .overlappingAttachment _ | .readOnlyWrite _ => False

/-- An error kind that a bus access may return, under the Rom policy of decision D11 (R168). -/
def ErrorKind.returnedByBus : ErrorKind → Prop
  | .outOfRangeAccess _ | .unmappedAddress _ => True
  | .noSourceLoaded | .unsupportedOpcode _ | .expectedParameter _ | .overlappingAttachment _ | .readOnlyWrite _ => False

/-- An error kind that a device's own operation may return, under the Rom policy of decision D11 (R168). -/
def ErrorKind.returnedByDevice : ErrorKind → Prop
  | .outOfRangeAccess _ => True
  | .unmappedAddress _ | .noSourceLoaded | .unsupportedOpcode _ | .expectedParameter _ | .overlappingAttachment _
  | .readOnlyWrite _ => False

/-- An error kind that `attach` may return (R168). -/
def ErrorKind.returnedByAttach : ErrorKind → Prop
  | .overlappingAttachment _ => True
  | .outOfRangeAccess _ | .unmappedAddress _ | .noSourceLoaded | .unsupportedOpcode _ | .expectedParameter _
  | .readOnlyWrite _ => False

/-- The host's iteration of the machine's steps, stopping at the first fault or refusal. -/
def iterateSteps (k : Nat) (s : State) : Host.Outcome State Fault Refusal := Sys2Proof.core.run k s

/-- A run that ends within `fuel` steps, without error or with one (R122). -/
def EndsWithin (fuel : Nat) (s : State) : Prop :=
  (∃ t, interpret fuel s = .ok t) ∨ ∃ e t, interpret fuel s = .error e t

/-- A safe run: it ends without error (R122). -/
def SafeRun (s : State) : Prop := ∃ fuel t, interpret fuel s = .ok t

end Sys2Proof.Machine
end

