-- ==== Sys2Proof/Certificates/Slice0/Obligations.lean ====
section
/-! DEFINITION. The statements for the provers, drawn from the numbered rules of spec/. -/

open Sys2Proof Sys2Proof.Machine

/-! ## Encoding -/

/-- R96: the opcode byte alone decides among the handlers, and every byte has exactly one outcome. -/
def Obligations.OpcodeByteDecides : Prop :=
  ∀ b : Byte,
    (decodeOpcode b = .halt ↔ b = opHlt) ∧
    (decodeOpcode b = .ldaImm ↔ b = opLdaImm) ∧
    (decodeOpcode b = .tax ↔ b = opTax) ∧
    (∀ c, decodeOpcode b = .unsupported c ↔ c = b ∧ b ≠ opHlt ∧ b ≠ opLdaImm ∧ b ≠ opTax)

/-- The rows of the opcode map on words written out bit by bit, the bytes 10101001 and 10101010 being the spec's decision
D1 (log entry 3), with one byte of no row and one truncated instruction. -/
def Obligations.DecodesWrittenOutWords : Prop :=
  decode [0b00000000] = .ok (.hlt, []) ∧
  decode [0b10101001, 0b11000000] = .ok (.lda 0xC0, []) ∧
  decode [0b10101010] = .ok (.tax, []) ∧
  decode [0b11101010, 0b10101010] = .error (.unsupportedOpcode 0xEA) ∧
  decode [0b10101001] = .error .missingOperand

/-- R90, R92, R93: the bytes that decode to an instruction are its encoding followed by what is left, and no others. -/
def Obligations.DecodeIsTheInverseOfEncode : Prop :=
  ∀ (bytes : List Byte) (i : Instr) (rest : List Byte), i.wf = true →
    (decode bytes = .ok (i, rest) ↔ bytes = encode i ++ rest)

/-- R99: a walk over a stream finds the instructions that the stream was assembled from, with every operand, and a
stream that a walk accepts is the assembly of what it found. On any stream, with unsupported bytes and a truncated end
too, the boundaries start at index 0 and go on by the length of the opcode byte there; over an assembled stream they are
where its instructions start. -/
def Obligations.DisassembleAgreesWithAssemble : Prop :=
  (∀ is : List Instr, disassemble (assemble is) = .ok is) ∧
  (∀ (bytes : List Byte) (is : List Instr), disassemble bytes = .ok is → assemble is = bytes) ∧
  (boundaries [] = [] ∧ ∀ (b : Byte) (rest : List Byte),
    let length := if b = opLdaImm then 2 else 1
    boundaries (b :: rest) = 0 :: (boundaries (rest.drop (length - 1))).map (· + length)) ∧
  (∀ is : List Instr, (boundaries (assemble is)).length = is.length ∧
    ∀ k < is.length, (boundaries (assemble is))[k]? = some (assemble (is.take k)).length)

/-- A table word of any instruction decodes to it, with every operand. -/
def Obligations.TableWordRoundTrip : Prop :=
  ∀ i : Instr, decodeTableWord (8 * (encode i).length) (tableWord i) = some i

/-! ## The engine -/

/-- The model's step is the spec's five-step cycle of R119, outcome and state. The arm of `UnsupportedOpcode` rests on the
advance of `pc` before dispatch, the spec's decision D7 (log entry 4), the status an error leaves on its decision D6 (log
entry 7), and a halt's being a next state on log entry 8. -/
def Obligations.StepFollowsTheCycle : Prop :=
  ∀ s : State, s.istate = .running → step s = (cycle s).toOutcome

/-- A step whose bytes at the program counter decode to an instruction runs exactly that instruction. The meaning itself
moves `pc` past the instruction; the step adds nothing. -/
def Obligations.StepRunsTheDecodedInstruction : Prop :=
  ∀ (s : State) (i : Instr) (rest : List Byte),
    s.istate = .running → decode (fetchWindow s) = .ok (i, rest) → step s = exec i s

/-- A placed instruction is the one the very next step runs, wherever `pc` stands, across the wrap at the top too. -/
def Obligations.PlacedInstructionRuns : Prop :=
  ∀ (s : State) (i : Instr),
    step (s.withFetchWord (8 * (encode i).length) (tableWord i)) =
      exec i (s.withFetchWord (8 * (encode i).length) (tableWord i))

/-- R113: with no byte at `pc` the run ends without error, and nothing but the status changes. That this outcome is a next
state, whose status is `Halted`, is log entry 8's. -/
def Obligations.NaturalHaltAtTheEndOfTheStream : Prop :=
  ∀ s : State, s.istate = .running → streamLength s ≤ s.pc.toNat →
    step s = .next { s with istate := .halted }

/-- R120: `HLT` is the byte 0x00; it ends the run without error wherever it stands, `pc` is not advanced and nothing
else changes. A second `interpret()`, on any halted state, returns success and changes nothing: R110's row of the spec's
decision D8 (log entry 8). -/
def Obligations.HaltEndsTheRunInPlace : Prop :=
  opHlt = 0x00 ∧ (∀ rest, decode (opHlt :: rest) = .ok (.hlt, rest)) ∧
  (∀ s : State, exec .hlt s = .next { s with istate := .halted }) ∧
  (∀ s : State, s.istate = .running → streamRead s s.pc = some opHlt →
    step s = .next { s with istate := .halted }) ∧
  (∀ (s : State) (fuel : Nat), interpret fuel { s with istate := .halted } = .ok { s with istate := .halted })

/-- R140: what `LDA #imm8` does, as an instruction and as a step from the stream, and its one exception, whose position is
the spec's decision D21 (log entry 20) and which leaves the status `Running` by its decision D6 (log entry 7). -/
def Obligations.LoadAccumulatorImmediate : Prop :=
  (∀ (v : Byte) (s : State), exec (.lda v) s =
    .next { s with pc := s.pc + 2, a := v, z := decide (v = 0), n := decide (0x80 ≤ v.toNat) }) ∧
  (∀ (v : Byte) (s : State), s.istate = .running → streamRead s s.pc = some opLdaImm →
    streamRead s (s.pc + 1) = some v → step s =
      .next { s with pc := s.pc + 2, a := v, z := decide (v = 0), n := decide (0x80 ≤ v.toNat) }) ∧
  (∀ s : State, s.istate = .running → streamRead s s.pc = some opLdaImm →
    streamRead s (s.pc + 1) = none → step s =
      .fault (.raised (.expectedParameter (s.pc + 1)) { s with pc := s.pc + 1 }))

/-- R145: what `TAX` does, as an instruction and as a step from the stream. -/
def Obligations.TransferAccumulatorToIndex : Prop :=
  (∀ s : State, exec .tax s =
    .next { s with pc := s.pc + 1, x := s.a, z := decide (s.a = 0), n := decide (0x80 ≤ s.a.toNat) }) ∧
  (∀ s : State, s.istate = .running → streamRead s s.pc = some opTax → step s =
    .next { s with pc := s.pc + 1, x := s.a, z := decide (s.a = 0), n := decide (0x80 ≤ s.a.toNat) })

/-- The frame of the three instructions: the registers and flags an instruction does not write, the status but for
`HLT`, the stream, the bindings and the devices are unchanged, and every bus address and every byte of every device
reads as before. -/
def Obligations.InstructionFrames : Prop :=
  ∀ (i : Instr) (s t : State), exec i s = .next t →
    s.SameOutside t ∧
    (∀ addr, memRead addr t = memRead addr s) ∧
    (∀ id offset, (anyDevice id t).map (fun d => d.readByte offset) =
      (anyDevice id s).map (fun d => d.readByte offset)) ∧
    (match i with
      | .hlt => t.a = s.a ∧ t.x = s.x ∧ t.z = s.z ∧ t.n = s.n
      | .lda _ => t.x = s.x ∧ t.istate = s.istate
      | .tax => t.a = s.a ∧ t.istate = s.istate)

/-- R26: how far each instruction moves `pc`, modulo 65536. -/
def Obligations.ProgramCounterAdvance : Prop :=
  ∀ (i : Instr) (s t : State), exec i s = .next t →
    t.pc.toNat = (s.pc.toNat + (if i = .hlt then 0 else (encode i).length)) % 65536

/-- R31: after a step that executed one of the two instructions the flags reflect the register it wrote; a halt and a
host `set` write neither flag (of the `set` it is the spec's decision D28, log entry 23). -/
def Obligations.FlagsReflectTheWrittenRegister : Prop :=
  (∀ s t : State, s.istate = .running → step s = .next t →
    if streamRead s s.pc = some opLdaImm then t.z = decide (t.a = 0) ∧ t.n = decide (0x80 ≤ t.a.toNat)
    else if streamRead s s.pc = some opTax then t.z = decide (t.x = 0) ∧ t.n = decide (0x80 ≤ t.x.toNat)
    else t.z = s.z ∧ t.n = s.n) ∧
  (∀ (r : Reg) (v : Nat) (s : State), (hostSetReg r v s).z = s.z ∧ (hostSetReg r v s).n = s.n)

/-- R32: Zero and Negative are never both set after an instruction that writes them, and every step, one that ends in an
error too, keeps them from being both set. -/
def Obligations.ZeroAndNegativeExclude : Prop :=
  (∀ (i : Instr) (s t : State), i ≠ .hlt → exec i s = .next t → t.FlagsExclusive) ∧
  (∀ s t : State, s.FlagsExclusive → stateAfter (step s) = some t → t.FlagsExclusive)

/-! ## Errors -/

/-- R161: `NoSourceLoaded` is what `interpret()` answers exactly in `Unloaded`, for any number of steps, and nothing
changes; once a stream has been loaded it is not answered. -/
def Obligations.NoSourceLoadedExactlyWhenUnloaded : Prop :=
  (∀ (fuel : Nat) (s t : State),
    interpret fuel s = .error .noSourceLoaded t ↔ s.istate = .unloaded ∧ t = s) ∧
  (∀ (fuel : Nat) (source : List Byte) (s t : State),
    interpret fuel (loadSource source s) ≠ .error .noSourceLoaded t)

/-- When a step raises `UnsupportedOpcode`, and the state it leaves: `pc` one past the offending byte (the spec's decision
D7, log entry 4), everything else as before, the status `Running` too (its decision D6, log entry 7). -/
def Obligations.UnsupportedOpcodeExactly : Prop :=
  ∀ (s t : State) (b : Byte),
    step s = .fault (.raised (.unsupportedOpcode b) t) ↔
      s.istate = .running ∧ streamRead s s.pc = some b ∧ b ≠ opHlt ∧ b ≠ opLdaImm ∧ b ≠ opTax ∧
        t = { s with pc := s.pc + 1 }

/-- R163: when a step raises `ExpectedParameter`, its position (the spec's decision D21, log entry 20), and the state it
leaves, whose status is still `Running` (its decision D6, log entry 7). -/
def Obligations.ExpectedParameterExactly : Prop :=
  ∀ (s t : State) (p : Word16),
    step s = .fault (.raised (.expectedParameter p) t) ↔
      s.istate = .running ∧ streamRead s s.pc = some opLdaImm ∧ p = s.pc + 1 ∧ streamLength s ≤ p.toNat ∧
        t = { s with pc := p }

/-- R168, R171: a step raises `UnsupportedOpcode` or `ExpectedParameter`, or the `NoSourceLoaded` that the rules give to
`interpret()` before any step, and no other kind; no step is refused. That a step in `Unloaded` answers it, as a fault, is
the model's choice (log entries 1 and 7). -/
def Obligations.StepRaisesThreeKindsOnly : Prop :=
  ∀ s : State,
    (∃ t, step s = .next t) ∨ step s = .fault (.raised .noSourceLoaded s) ∨
    (∃ b t, step s = .fault (.raised (.unsupportedOpcode b) t)) ∨
    (∃ p t, step s = .fault (.raised (.expectedParameter p) t))

/-- R123, R172: in a step that raises in `Running` the machine has done exactly the increment of `pc` past the opcode;
nothing else has changed, and the address of the faulting opcode is `pc` less one. That the increment comes before an
unsupported opcode's dispatch is the spec's decision D7 (log entry 4), that the status stays `Running` its decision D6 (log
entry 7). -/
def Obligations.ErrorsArePrecise : Prop :=
  ∀ (s t : State) (e : ErrorKind), s.istate = .running → step s = .fault (.raised e t) →
    t = { s with pc := t.pc } ∧ t.pc - 1 = s.pc

/-- R124: after an error another `interpret()` starts a run at the `pc` left: past the offending byte (the spec's decision
D7, log entry 4), or at an absent position, where it halts naturally. That it is a run at all rests on the status left,
`Running` (its decision D6, log entry 7). -/
def Obligations.RunsResumeAfterAnError : Prop :=
  ∀ (s t : State) (e : ErrorKind), s.istate = .running → step s = .fault (.raised e t) →
    (∀ fuel, interpret fuel t = runLoop fuel t) ∧
    (∀ b, e = .unsupportedOpcode b → t.pc = s.pc + 1) ∧
    (∀ p fuel, e = .expectedParameter p → interpret (fuel + 1) t = .ok { t with istate := .halted })

/-! ## Invariants -/

/-- What the machine holds after its creation: the spec's decision D4 (log entry 2), and `fresh` of the model's own
(log entry 10). -/
def Obligations.ResetValues : Prop :=
  let s := State.reset
  s.a = 0 ∧ s.x = 0 ∧ s.pc = 0 ∧ s.z = false ∧ s.n = false ∧ s.istate = .unloaded ∧ s.stream = none ∧
    s.bindings = [] ∧ s.pool = [] ∧ s.fresh = 0

/-- The invariants hold at reset. That Zero and Negative are not both set there rests on the zeros of the spec's decision
D4 (log entry 2), and that the device names are fresh on the model's own counter (log entry 10). -/
def Obligations.ResetMeetsTheInvariants : Prop :=
  State.reset.Inv ∧ State.reset.CapacitiesFixed ∧ State.reset.FlagsExclusive

/-- Every step keeps the invariant of the machine and the capacities of its devices, one that ends in an error too. -/
def Obligations.StepKeepsTheInvariant : Prop :=
  ∀ s t : State, stateAfter (step s) = some t → (s.Inv → t.Inv) ∧ (s.CapacitiesFixed → t.CapacitiesFixed)

/-- Every operation of the host keeps the invariant: ranges stay well-formed and apart, streams stay within `L_MAX`, every
device's storage stays canonical and inside its capacity. And every one keeps each device at the capacity of its type
(R37), a constant whose value is open (decision D18, log entry 9). -/
def Obligations.HostOperationsKeepTheInvariant : Prop :=
  ∀ (op : HostOp) (s t : State), (hostStep op s).after = some t →
    (s.Inv → t.Inv) ∧ (s.CapacitiesFixed → t.CapacitiesFixed)

/-- R34, R36, R38: no step, whatever its outcome, changes the stream, the bindings or a device; every bus address reads
as before. That the stream stays loaded after an error is the spec's decision D6 (log entry 7). -/
def Obligations.StepsLeaveStreamAndBusAlone : Prop :=
  ∀ s t : State, stateAfter (step s) = some t → s.SameOutside t ∧ ∀ addr, memRead addr t = memRead addr s

/-- R38, R50: no step can learn anything of the bus or the devices: with other ones the step does the same. -/
def Obligations.StepsDoNotSeeTheBus : Prop :=
  ∀ s u : State, step (s.withOutside u) = outcomeWithOutside (step s) u

/-- R110: of all the host's operations only a reset of the Interpreter leads back to `Unloaded`. -/
def Obligations.OnlyResetUnloads : Prop :=
  ∀ (op : HostOp) (s t : State), (hostStep op s).after = some t → s.istate ≠ .unloaded →
    t.istate = .unloaded → op = .resetInterpreter

/-! ## Runs -/

/-- R112: a run is the iteration of steps: its result is the one the machine's steps give, for every number of steps; and
the host's `interpret()` (R195) answers exactly that result, with the state it leaves, from every state. An error leaves
the status `Running` by the spec's decision D6 (log entry 7); that a halt is a next state, and a step in `Halted` answers
the same state, is log entry 8's (decision D8); `unfinished` is log entry 15's. -/
def Obligations.RunIsTheIterationOfSteps : Prop :=
  (∀ (fuel : Nat) (s : State), s.istate = .running →
    match interpret fuel s with
    | .ok t => iterateSteps fuel s = .next t ∧ t.istate = .halted
    | .error e t => iterateSteps fuel s = .fault (.raised e t) ∧ t.istate = .running
    | .unfinished t => iterateSteps fuel s = .next t ∧ t.istate = .running
    | .refused _ => False) ∧
  (∀ (fuel : Nat) (s : State),
    match interpret fuel s with
    | .ok t => hostStep (.interpret fuel) s = .ok .unit t
    | .error e t => hostStep (.interpret fuel) s = .error e t
    | .unfinished t => hostStep (.interpret fuel) s = .unfinished t
    | .refused _ => False)

/-- A run that has ended within some number of steps has the same result for every larger number. -/
def Obligations.RunResultIsStable : Prop :=
  ∀ (fuel more : Nat) (s : State), EndsWithin fuel s → interpret (fuel + more) s = interpret fuel s

/-- R110 (decision D8, log entry 8): in `Halted`, `interpret()` returns success at once and nothing changes. -/
def Obligations.HaltedRunReturnsAtOnce : Prop :=
  ∀ s : State, s.istate = .halted → step s = .next s ∧ ∀ fuel, interpret fuel s = .ok s

/-- R122: a run over a stream shorter than 65536 bytes ends, within `max(0, L - pc) + 1` steps. -/
def Obligations.ShortStreamRunsEnd : Prop :=
  ∀ s : State, s.istate = .running → streamLength s ≤ 65535 →
    EndsWithin (streamLength s - s.pc.toNat + 1) s

/-- R122: a run over a full-length stream may never end: one of nothing but `TAX` does not. That
it has not ended is `unfinished` for every number of steps (log entry 15). -/
def Obligations.FullStreamRunMayNeverEnd : Prop :=
  ∀ s : State, s.istate = .running → s.stream = some (List.replicate 65536 opTax) →
    ∀ fuel, ∃ t, interpret fuel s = .unfinished t

/-- R171, R197: a stream that holds whole instructions from `pc` to its end runs without error. -/
def Obligations.WholeInstructionsRunSafely : Prop :=
  ∀ (s : State) (before : List Byte) (is : List Instr), s.istate = .running →
    s.stream = some (before ++ assemble is) → (before ++ assemble is).length ≤ 65535 →
    s.pc.toNat = before.length → SafeRun s

/-! ## The host and the Cpu -/

/-- R21: the host's `set` wraps to 8 bits and changes nothing but its register; `get` answers the register and changes
nothing. That the `set` leaves the flags alone is the spec's decision D28 (log entry 23). -/
def Obligations.HostSetAndGet : Prop :=
  ∀ (r q : Reg) (v : Nat) (s : State),
    hostStep (.getReg r) s = .ok (.byte (getReg r s)) s ∧
    hostStep (.setReg r v) s = .ok .unit (hostSetReg r v s) ∧
    (getReg r (hostSetReg r v s)).toNat = v % 256 ∧
    (q ≠ r → getReg q (hostSetReg r v s) = getReg q s) ∧
    { hostSetReg r v s with a := s.a, x := s.x } = s

/-- R25: the program counter's two operations; the increment wraps at the top and changes nothing else. -/
def Obligations.ProgramCounterOperations : Prop :=
  ∀ s : State,
    hostStep .getPc s = .ok (.word s.pc) s ∧
    hostStep .incrementPc s = .ok .unit { s with pc := s.pc + 1 } ∧
    (incPc s).pc.toNat = (s.pc.toNat + 1) % 65536

/-- R29, R30: the flag update functions, each flag written in both cases and nothing else changed, by the host too (R195);
and the host's flag reads (R41), which change nothing. -/
def Obligations.FlagUpdateFunctions : Prop :=
  ∀ (v : Byte) (s : State),
    updateZeroFlag v s = { s with z := decide (v = 0) } ∧
    updateNegativeFlag v s = { s with n := decide (0x80 ≤ v.toNat) } ∧
    hostStep (.updateZeroFlag v) s = .ok .unit { s with z := decide (v = 0) } ∧
    hostStep (.updateNegativeFlag v) s = .ok .unit { s with n := decide (0x80 ≤ v.toNat) } ∧
    hostStep (.getFlag .zero) s = .ok (.flag s.z) s ∧
    hostStep (.getFlag .negative) s = .ok (.flag s.n) s

/-- R111: `load(source)` in every status: the stream and the status are set and the Cpu is not touched, `pc` included; a
source longer than `L_MAX` is refused: the spec's decisions D5 and D24 (log entry 19) and D9 (log entry 12). -/
def Obligations.LoadKeepsTheCpu : Prop :=
  ∀ (source : List Byte) (s : State),
    (source.length ≤ 65536 →
      hostStep (.loadSource source) s = .ok .unit { s with stream := some source, istate := .running }) ∧
    (65536 < source.length → hostStep (.loadSource source) s = .refused (.sourceTooLong source.length))

/-- R190 (decision D29, log entry 16): each component resets alone, to the values of R40, which for the Cpu are the zeros of
the spec's decision D4 (log entry 2). A device, the host's or the bus's, keeps its name, kind, capacity and place, and takes
an empty store and a new draw of its contents (log entries 5 and 10); every other device, the ranges and the Cpu and engine
stay; under a name of no device the reset is refused (log entry 13). A device is created as it is reset, with the
capacity of its type (R37; decision D18, log entry 9), and the host holds it (R192). -/
def Obligations.ComponentResetsAreSeparate : Prop :=
  ∀ s : State,
    hostStep .resetCpu s = .ok .unit { s with a := 0, x := 0, pc := 0, z := false, n := false } ∧
    hostStep .resetInterpreter s = .ok .unit { s with istate := .unloaded, stream := none } ∧
    hostStep .resetBus s = .ok .unit { s with bindings := [] } ∧
    (∀ d ∈ s.devices, s.Inv →
      let again := fun c : Device => if c = d then { d with draw := s.fresh, store := [] } else c
      hostStep (.resetDevice d.id) s = .ok .unit { s with
        pool := s.pool.map again
        bindings := s.bindings.map fun b => { b with dev := again b.dev }
        fresh := s.fresh + 1 }) ∧
    (∀ id, (∀ d ∈ s.devices, d.id ≠ id) → hostStep (.resetDevice id) s = .refused (.deviceNotHeld id)) ∧
    (∀ kind, hostStep (.createDevice kind) s = .ok (.device s.fresh) { s with
      pool := s.pool ++ [{ id := s.fresh, kind := kind, capacity := kind.capacity, draw := s.fresh, store := [] }]
      fresh := s.fresh + 1 })

/-! ## Devices -/

/-- R61: a device's read: the stored byte inside its capacity, `OutOfRangeAccess` with the offset outside it (decision D12,
log entry 20); the host's
read of a device it holds (R195) is the device's and changes nothing. -/
def Obligations.DeviceReadIsBounded : Prop :=
  ∀ (d : Device) (offset : Nat),
    (offset < d.capacity → ∃ b, d.readByte offset = .ok b ∧ ∀ c, Memory.read d.store offset = some c → b = c) ∧
    (d.capacity ≤ offset → d.readByte offset = .error (.outOfRangeAccess offset)) ∧
    (∀ s : State, s.Inv → d ∈ s.pool → hostStep (.deviceRead d.id offset) s = answerByte s (d.readByte offset))

/-- R62: a Ram's write: the byte is read back, every other offset reads as before, the device keeps all but its store, and
outside the capacity nothing is stored and the error carries the local offset (the spec's decision D12, log entry 20). The
host's write of a device it holds (R195) writes that device alone. -/
def Obligations.RamWriteThenRead : Prop :=
  ∀ (d : Device) (offset : Nat) (b : Byte), d.kind = .ram → Memory.wf d.store →
    (offset < d.capacity → ∃ d', d.writeByte offset b = .ok d' ∧ d'.readByte offset = .ok b ∧
      (∀ j, j ≠ offset → d'.readByte j = d.readByte j) ∧ d' = { d with store := d'.store } ∧
      ∀ s : State, s.Inv → d ∈ s.pool →
        ∃ t, t = { s with pool := s.pool.map fun c => if c = d then d' else c } ∧
          hostStep (.deviceWrite d.id offset b) s = .ok .unit t ∧
          hostStep (.deviceRead d.id offset) t = .ok (.byte b) t) ∧
    (d.capacity ≤ offset → d.writeByte offset b = .error (.outOfRangeAccess offset) ∧
      ∀ s : State, s.Inv → d ∈ s.pool →
        hostStep (.deviceWrite d.id offset b) s = .error (.outOfRangeAccess offset) s)

/-- R63: a Rom's write under either policy, and the policy the spec decides (decision D11, log entry 6), by the host too
(R195). The payload outside the capacity is the local offset (decision D12, log entry 20). -/
def Obligations.RomIsNeverWritten : Prop :=
  ∀ (d : Device) (offset : Nat) (b : Byte), d.kind = .rom →
    (offset < d.capacity → d.writeByteUnder .ignore offset b = .ok d ∧
      d.writeByteUnder .fault offset b = .error (.readOnlyWrite offset) ∧ d.writeByte offset b = .ok d ∧
      ∀ s : State, s.Inv → d ∈ s.pool → hostStep (.deviceWrite d.id offset b) s = .ok .unit s) ∧
    (d.capacity ≤ offset → (∀ policy, d.writeByteUnder policy offset b = .error (.outOfRangeAccess offset)) ∧
      d.writeByte offset b = .error (.outOfRangeAccess offset) ∧
      ∀ s : State, s.Inv → d ∈ s.pool →
        hostStep (.deviceWrite d.id offset b) s = .error (.outOfRangeAccess offset) s)

/-- R64: a device's `load` stores all of its data or nothing; the payload is the first offset that does not exist
(decision D13, log entry 20). The device keeps all but its store, and the host's `load` of a device it holds (R195) writes
that device alone. -/
def Obligations.DeviceLoadRoundTrip : Prop :=
  ∀ (d : Device) (offset : Nat) (data : List Byte), Memory.wf d.store →
    (offset + data.length ≤ d.capacity → ∃ d', d.load offset data = .ok d' ∧
      (∀ k, (h : k < data.length) → d'.readByte (offset + k) = .ok data[k]) ∧
      (∀ j, j < offset ∨ offset + data.length ≤ j → d'.readByte j = d.readByte j) ∧ d' = { d with store := d'.store } ∧
      ∀ s : State, s.Inv → d ∈ s.pool →
        hostStep (.deviceLoad d.id offset data) s =
          .ok .unit { s with pool := s.pool.map fun c => if c = d then d' else c }) ∧
    (d.capacity < offset + data.length →
      d.load offset data = .error (.outOfRangeAccess (max offset d.capacity)) ∧
      ∀ s : State, s.Inv → d ∈ s.pool →
        hostStep (.deviceLoad d.id offset data) s = .error (.outOfRangeAccess (max offset d.capacity)) s)

/-- R65: a dump is all the stored bytes in offset order; the host's dump of any device (R41, R195) is the device's and
changes nothing, and under a name of no device it is refused (log entry 13). -/
def Obligations.DumpIsTheWholeContents : Prop :=
  (∀ d : Device, d.dump.length = d.capacity ∧
    (∀ (offset : Nat) (b : Byte), d.dump[offset]? = some b ↔ d.readByte offset = .ok b) ∧
    (∀ s : State, s.Inv → d ∈ s.devices → hostStep (.deviceDump d.id) s = .ok (.bytes d.dump) s)) ∧
  (∀ (s : State) (id : Nat), (∀ d ∈ s.devices, d.id ≠ id) →
    hostStep (.deviceDump id) s = .refused (.deviceNotHeld id))

/-! ## The bus -/

/-- R57: two well-formed ranges overlap exactly when they share an address. -/
def Obligations.OverlapMeansASharedAddress : Prop :=
  ∀ r q : AddrRange, rangeWf r = true → rangeWf q = true →
    (r.overlaps q = true ↔ ∃ addr : Word16, r.contains addr = true ∧ q.contains addr = true)

/-- R58: routing is total and is a function of the address and of the set of bindings alone: their order has no effect,
and the binding found is the only one that contains the address. -/
def Obligations.RoutingIsDeterministic : Prop :=
  ∀ (bs cs : List Binding) (addr : Word16),
    bs.Pairwise (fun b c => b.range.overlaps c.range = false) → bs.Perm cs →
    route cs addr = route bs addr ∧
    (∀ b, route bs addr = some b ↔ b ∈ bs ∧ b.range.contains addr = true)

/-- R59: a bus read delegates to the binding that contains the address, with the device-local offset, and is
`UnmappedAddress` where there is none, with the bus address (the spec's decision D12, log entry 20). -/
def Obligations.BusReadTranslatesAndDelegates : Prop :=
  ∀ (s : State) (addr : Word16), s.Inv →
    (∀ b ∈ s.bindings, b.range.contains addr = true →
      hostStep (.busRead addr) s = answerByte s (b.dev.readByte (addr.toNat - b.range.start))) ∧
    ((∀ b ∈ s.bindings, b.range.contains addr = false) →
      hostStep (.busRead addr) s = .error (.unmappedAddress addr) s)

/-- R60: a bus write to an address of a Ram is read back there, and every other bus address reads as before. The routed
binding's device, and nothing else of the state, becomes what its own write answers at the local offset: the ranges, the
other bindings, the Cpu and the engine stay. -/
def Obligations.BusWriteThenRead : Prop :=
  ∀ (s : State) (b : Binding) (addr : Word16) (v : Byte), s.Inv → b ∈ s.bindings →
    b.range.contains addr = true → b.dev.kind = .ram → addr.toNat - b.range.start < b.dev.capacity →
    ∃ t d', b.dev.writeByte (addr.toNat - b.range.start) v = .ok d' ∧
      hostStep (.busWrite addr v) s = .ok .unit t ∧ memWrite addr v s = .ok t ∧ memRead addr t = .ok v ∧
      (∀ other, other ≠ addr → memRead other t = memRead other s) ∧
      t.bindings.map Binding.range = s.bindings.map Binding.range ∧
      t = { s with bindings := s.bindings.map fun c => if c = b then { b with dev := d' } else c }

/-- R60, R63: the bus writes that change nothing: to an unmapped address, which is an error with that address (decision D12,
log entry 20), and to a Rom, which the policy of decision D11 (log entry 6) lets return. -/
def Obligations.BusWritesThatChangeNothing : Prop :=
  ∀ (s : State) (addr : Word16) (v : Byte),
    ((∀ b ∈ s.bindings, b.range.contains addr = false) →
      hostStep (.busWrite addr v) s = .error (.unmappedAddress addr) s) ∧
    (∀ b, route s.bindings addr = some b → b.dev.kind = .rom → addr.toNat - b.range.start < b.dev.capacity →
      hostStep (.busWrite addr v) s = .ok .unit s)

/-- R66, R67: beyond the end of a device that is shorter than its range the access is the device's `OutOfRangeAccess`,
with the local offset, read and write alike (decisions D12 and D16, log entries 20 and 26). -/
def Obligations.RangeLongerThanItsDevice : Prop :=
  ∀ (s : State) (b : Binding) (addr : Word16) (v : Byte), route s.bindings addr = some b →
    b.dev.capacity ≤ addr.toNat - b.range.start →
    hostStep (.busRead addr) s = .error (.outOfRangeAccess (addr.toNat - b.range.start)) s ∧
    hostStep (.busWrite addr v) s = .error (.outOfRangeAccess (addr.toNat - b.range.start)) s

/-- R56, R54: `attach` of an ill-formed range is refused (decision D15, log entry 11). Of a device the host holds it is an
error with the requested range (decision D12, log entry 20) that changes nothing for an overlapping range, and else the
binding is added and nothing else changes but that the bus owns the device from then on. Under every name that none of the
host's devices has, as that one's after the attach, `attach` and the host's own read, write and `load` are refused (log
entry 13). -/
def Obligations.AttachAddsOrRejects : Prop :=
  (∀ (s : State) (r : AddrRange) (id : Nat), rangeWf r = false →
    hostStep (.attach r id) s = .refused (.illFormedRange r)) ∧
  (∀ (s : State) (r : AddrRange) (d : Device), s.Inv → d ∈ s.pool → rangeWf r = true →
    ((∃ b ∈ s.bindings, r.overlaps b.range = true) →
      hostStep (.attach r d.id) s = .error (.overlappingAttachment r) s) ∧
    ((∀ b ∈ s.bindings, r.overlaps b.range = false) →
      ∃ t, t = { s with bindings := s.bindings ++ [⟨r, d⟩], pool := s.pool.filter fun c => c ≠ d } ∧
        hostStep (.attach r d.id) s = .ok .unit t ∧ ∀ c ∈ t.pool, c.id ≠ d.id)) ∧
  (∀ (s : State) (id : Nat), (∀ d ∈ s.pool, d.id ≠ id) →
    (∀ r, rangeWf r = true → hostStep (.attach r id) s = .refused (.deviceNotHeld id)) ∧
    ∀ offset v data, hostStep (.deviceRead id offset) s = .refused (.deviceNotHeld id) ∧
      hostStep (.deviceWrite id offset v) s = .refused (.deviceNotHeld id) ∧
      hostStep (.deviceLoad id offset data) s = .refused (.deviceNotHeld id))

/-! ## The mechanism for adding instructions -/

/-- R94, R150: the cycle over the table of the two handlers in scope is the cycle of R119, and the step, the run and the
host's operations over that table are the machine's own. -/
def Obligations.BaseTableGivesTheCycle : Prop :=
  ∀ s : State, cycleWith baseTable s = cycle s ∧ stepWith baseTable s = step s ∧
    (∀ fuel, interpretWith baseTable fuel s = interpret fuel s) ∧
    (∀ op, hostStepWith baseTable op s = hostStep op s)

/-- R151: no handler writes the stream, the status or the bus's bindings, whatever its outcome: each binding keeps its range
and its device, of which only a Ram's store may change; and `pc` moves only by the operand fetches that succeed, each of
which reads a byte of the stream. -/
def Obligations.HandlersTouchOnlyWhatTheyMay : Prop :=
  ∀ (h : Handler) (s : State),
    let t := (runHandler h s).after
    t.stream = s.stream ∧ t.istate = s.istate ∧ t.pool = s.pool ∧ t.fresh = s.fresh ∧
    List.Forall₂ (fun b c : Binding => c = { b with dev := { b.dev with store := c.dev.store } } ∧
      (b.dev.kind = .rom → c = b)) s.bindings t.bindings ∧
    t.pc = s.pc + BitVec.ofNat 16 (h.fetchCount s) ∧
    ∀ k < h.fetchCount s, streamRead s (s.pc + BitVec.ofNat 16 k) ≠ none

/-- R152: a handler whose fallible actions come first leaves nothing but `pc` changed when it raises. -/
def Obligations.OrderlyHandlersFailCleanly : Prop :=
  ∀ (h : Handler) (s t : State) (e : ErrorKind), h.orderly → runHandler h s = .fault e t →
    t = { s with pc := t.pc }

/-- R150, R157: an added row gives its byte its handler, entered with `pc` past the opcode, and changes no other byte's
outcome; the table stays well-formed. -/
def Obligations.AddedRowsKeepTheOthers : Prop :=
  ∀ (table table' : OpcodeTable) (b : Byte) (h : Handler), table.wf = true → table.extend b h = some table' →
    table'.wf = true ∧
    (∀ s : State, streamRead s s.pc = some b → cycleWith table' s = runHandler h (incPc s)) ∧
    (∀ s : State, streamRead s s.pc ≠ some b → cycleWith table' s = cycleWith table s)

/-- R155, R117: the 16-bit operand of an added handler: the first fetched byte is bits 7:0 (decision D14, log entry 17),
`pc` moves by two, and each missing byte raises `ExpectedParameter` with its own position (decision D21, log entry 20). -/
def Obligations.WordOperandIsLittleEndian : Prop :=
  ∀ (k : Word16 → Handler) (s : State),
    (∀ low high : Byte, streamRead s s.pc = some low → streamRead s (s.pc + 1) = some high →
      ∃ w : Word16, w.toNat = low.toNat + 256 * high.toNat ∧
        runHandler (.fetchWord k) s = runHandler (k w) { s with pc := s.pc + 2 }) ∧
    (streamRead s s.pc = none → runHandler (.fetchWord k) s = .fault (.expectedParameter s.pc) s) ∧
    (∀ low : Byte, streamRead s s.pc = some low → streamRead s (s.pc + 1) = none →
      runHandler (.fetchWord k) s = .fault (.expectedParameter (s.pc + 1)) { s with pc := s.pc + 1 })

/-- R112, R68, R69, R154, R170: the run over any table goes on after `next`, ends after a halt, and returns the error of a
step without starting another, its status still `Running` (the spec's decision D6, log entry 7); the host's `interpret()`
answers exactly the run's result, `unfinished` being log entry 15's; and a handler's bus access that fails is such an
error, with the Bus's or the device's kind and payload, where one that succeeds lets the handler go on. -/
def Obligations.ExtendedRunsReturnHandlerErrors : Prop :=
  (∀ (table : OpcodeTable) (fuel : Nat) (s : State), s.istate = .running →
    match cycleWith table s with
    | .next t => t.istate = .running ∧ interpretWith table (fuel + 1) s = interpretWith table fuel t
    | .halt t => t = { s with istate := .halted } ∧ interpretWith table (fuel + 1) s = .ok t
    | .fault e t => t.istate = .running ∧ interpretWith table (fuel + 1) s = .error e t) ∧
  (∀ (table : OpcodeTable) (fuel : Nat) (s : State),
    match interpretWith table fuel s with
    | .ok t => hostStepWith table (.interpret fuel) s = .ok .unit t
    | .error e t => hostStepWith table (.interpret fuel) s = .error e t
    | .unfinished t => hostStepWith table (.interpret fuel) s = .unfinished t
    | .refused _ => False) ∧
  (∀ (addr : Word16) (k : Byte → Handler) (s : State),
    (∀ e, memRead addr s = .error e → runHandler (.load addr k) s = .fault e s) ∧
    (∀ v, memRead addr s = .ok v → runHandler (.load addr k) s = runHandler (k v) s)) ∧
  (∀ (addr : Word16) (v : Byte) (k : Handler) (s : State),
    (∀ e, memWrite addr v s = .error e → runHandler (.store addr v k) s = .fault e s) ∧
    (∀ t, memWrite addr v s = .ok t → runHandler (.store addr v k) s = runHandler k t))

/-- Every step and every host operation of the machine with any table of added handlers, one that ends in an error too,
keeps the invariant, and each device at the capacity of its type (R37; decision D18, log entry 9). -/
def Obligations.ExtendedMachineKeepsTheInvariant : Prop :=
  ∀ (table : OpcodeTable) (s t : State),
    (stateAfter (stepWith table s) = some t ∨ ∃ op, (hostStepWith table op s).after = some t) →
    (s.Inv → t.Inv) ∧ (s.CapacitiesFixed → t.CapacitiesFixed)

/-- R168: which operation can return which kind, over any table of handlers: `interpret()` a bus kind only where some
handler references memory, and no operation `ReadOnlyWrite` (decision D11, log entry 6). -/
def Obligations.EachOperationReturnsItsOwnKinds : Prop :=
  ∀ (table : OpcodeTable) (op : HostOp) (s t : State) (e : ErrorKind), hostStepWith table op s = .error e t →
    match op with
    | .interpret _ => e.returnedByRun ∨ (e.returnedByBus ∧ ∃ row ∈ table, ¬ row.2.busFree)
    | .attach _ _ => e.returnedByAttach
    | .busRead _ | .busWrite _ _ => e.returnedByBus
    | .deviceRead _ _ | .deviceWrite _ _ _ | .deviceLoad _ _ _ => e.returnedByDevice
    | _ => False
end

