-- ==== Sys2Proof/Laws/Memory.lean ====
section
/-! SUPPORT. Storage: reads after writes, and the canonical form that every operation keeps. -/

namespace Sys2Proof.Laws

open Sys2Proof.Machine

@[simp] theorem memory_read_nil (i : Nat) : Memory.read [] i = none := rfl

/-- A read after a write: the byte written there, and elsewhere what it was. -/
theorem memory_read_write (m : Memory) (i j : Nat) (b : Byte) (h : Memory.wf m) :
    Memory.read (Memory.write m i b) j = if j = i then some b else Memory.read m j := by
  induction m with
  | nil => by_cases e : j = i <;> simp [Memory.write, Memory.read, Memory.unlisted, e, eq_comm (a := i)]
  | cons c m ih =>
    obtain ⟨k, c⟩ := c
    have hm : Memory.wf m := (List.pairwise_cons.mp h).2
    by_cases lt : i < k
    · by_cases e : j = i
      · simp [Memory.write, Memory.read, lt, e]
      · simp [Memory.write, Memory.read, lt, e, eq_comm (a := i)]
    · by_cases eq : i = k
      · subst eq
        by_cases e : j = i
        · simp [Memory.write, Memory.read, e]
        · simp [Memory.write, Memory.read, e, eq_comm (a := i)]
      · by_cases e : k = j
        · subst e
          simp [Memory.write, Memory.read, lt, eq, eq_comm (a := k)]
        · simp [Memory.write, Memory.read, lt, eq, e, ih hm]

/-- The offsets a write lists: the old ones and the one written. -/
theorem memory_mem_write {m : Memory} {i : Nat} {b : Byte} {c : Host.Cell} (h : c ∈ Memory.write m i b) :
    c = (i, b) ∨ c ∈ m := by
  induction m with
  | nil => simpa [Memory.write] using h
  | cons d m ih =>
    obtain ⟨k, e⟩ := d
    simp only [Memory.write] at h
    split at h
    · simpa using h
    · split at h
      · rcases List.mem_cons.mp h with r | r
        · exact .inl r
        · exact .inr (List.mem_cons_of_mem _ r)
      · rcases List.mem_cons.mp h with r | r
        · exact .inr (r ▸ List.mem_cons_self)
        · exact (ih r).imp id (List.mem_cons_of_mem _)

theorem memory_wf_nil : Memory.wf [] := List.Pairwise.nil

/-- A write keeps the canonical form. -/
theorem memory_wf_write (m : Memory) (i : Nat) (b : Byte) (h : Memory.wf m) : Memory.wf (Memory.write m i b) := by
  induction m with
  | nil => simp [Memory.write, Memory.wf]
  | cons d m ih =>
    obtain ⟨k, e⟩ := d
    simp only [Memory.wf, List.map_cons, List.pairwise_cons] at h ⊢
    obtain ⟨hk, hm⟩ := h
    simp only [Memory.write]
    split
    · rename_i lt
      simp only [List.map_cons, List.pairwise_cons]
      refine ⟨fun q hq => ?_, hk, hm⟩
      rcases List.mem_cons.mp hq with rfl | hq
      · exact lt
      · exact lt.trans (hk q hq)
    · split
      · rename_i eq
        subst eq
        exact List.pairwise_cons.mpr ⟨hk, hm⟩
      · rename_i nlt neq
        refine List.pairwise_cons.mpr ⟨fun q hq => ?_, ih hm⟩
        obtain ⟨c, hc, rfl⟩ := List.mem_map.mp hq
        rcases memory_mem_write hc with rfl | hc
        · exact lt_of_le_of_ne (not_lt.mp nlt) (Ne.symm neq)
        · exact hk _ (List.mem_map_of_mem hc)

theorem memory_wf_writeAll (bs : List Byte) : ∀ (m : Memory) (i : Nat), Memory.wf m →
    Memory.wf (Memory.writeAll m i bs) := by
  induction bs with
  | nil => exact fun _ _ h => h
  | cons b bs ih => exact fun m i h => ih _ _ (memory_wf_write m i b h)

theorem memory_mem_writeAll {c : Host.Cell} (bs : List Byte) : ∀ (m : Memory) (i : Nat),
    c ∈ Memory.writeAll m i bs → c ∈ m ∨ (i ≤ c.1 ∧ c.1 < i + bs.length) := by
  induction bs with
  | nil => exact fun _ _ h => .inl h
  | cons b bs ih =>
    intro m i h
    rcases ih _ _ h with h | h
    · rcases memory_mem_write h with rfl | h
      · exact .inr ⟨le_refl _, by simp⟩
      · exact .inl h
    · exact .inr ⟨by omega, by simp only [List.length_cons]; omega⟩

/-- A read after a sequence of writes: inside the written offsets the byte written there, elsewhere what it was. -/
theorem memory_read_writeAll (bs : List Byte) : ∀ (m : Memory) (i j : Nat), Memory.wf m →
    Memory.read (Memory.writeAll m i bs) j =
      if i ≤ j ∧ j < i + bs.length then bs[j - i]? else Memory.read m j := by
  induction bs with
  | nil =>
    intro m i j _
    rw [if_neg (by simp only [List.length_nil]; omega)]
    rfl
  | cons b bs ih =>
    intro m i j h
    rw [Memory.writeAll, ih _ _ _ (memory_wf_write m i b h), memory_read_write _ _ _ _ h]
    simp only [List.length_cons]
    split
    · rw [if_pos (by omega), show j - i = (j - (i + 1)) + 1 by omega, List.getElem?_cons_succ]
    · split
      · rename_i e
        subst e
        rw [if_pos (by omega)]
        simp
      · rw [if_neg (by omega)]

/-- The policy the spec decides. -/
theorem device_writeByte_rom {d : Device} (hk : d.kind = .rom) {i : Nat} (hi : i < d.capacity) (b : Byte) :
    d.writeByte i b = .ok d := by
  simp [Device.writeByte, Device.writeByteUnder, romWritePolicy, hk, hi]

theorem device_writeByte_ram {d : Device} (hk : d.kind = .ram) {i : Nat} (hi : i < d.capacity) (b : Byte) :
    d.writeByte i b = .ok { d with store := Memory.write d.store i b } := by
  simp [Device.writeByte, Device.writeByteUnder, hk, hi]

/-- Everything `write_byte` can do (R62, R63). -/
theorem device_writeByte_cases (d : Device) (i : Nat) (b : Byte) :
    (i < d.capacity ∧ d.kind = .ram ∧ d.writeByte i b = .ok { d with store := Memory.write d.store i b }) ∨
    (i < d.capacity ∧ d.kind = .rom ∧ d.writeByte i b = .ok d) ∨
    (¬ i < d.capacity ∧ d.writeByte i b = .error (.outOfRangeAccess i)) := by
  by_cases hi : i < d.capacity
  · rcases hk : d.kind
    · exact .inl ⟨hi, rfl, by rw [device_writeByte_ram hk hi b, hk]⟩
    · exact .inr (.inl ⟨hi, rfl, device_writeByte_rom hk hi b⟩)
  · exact .inr (.inr ⟨hi, by simp [Device.writeByte, Device.writeByteUnder, hi]⟩)

/-- Everything `read_byte` can do (R61). -/
theorem device_readByte_cases (d : Device) (i : Nat) :
    (i < d.capacity ∧ d.readByte i = .ok (d.byteAt i)) ∨
    (¬ i < d.capacity ∧ d.readByte i = .error (.outOfRangeAccess i)) := by
  by_cases hi : i < d.capacity
  · exact .inl ⟨hi, if_pos hi⟩
  · exact .inr ⟨hi, if_neg hi⟩

/-- Everything a device's `load` can do (R64). -/
theorem device_load_cases (d : Device) (i : Nat) (bs : List Byte) :
    (i + bs.length ≤ d.capacity ∧ d.load i bs = .ok { d with store := Memory.writeAll d.store i bs }) ∨
    (d.capacity < i + bs.length ∧ d.load i bs = .error (.outOfRangeAccess (max i d.capacity))) := by
  by_cases h : d.capacity < i + bs.length
  · exact .inr ⟨h, if_pos h⟩
  · exact .inl ⟨not_lt.mp h, if_neg h⟩

end Sys2Proof.Laws
end

