-- ==== Sys2Proof/Laws/Bus.lean ====
section
/-! SUPPORT. What routing and the bus's accesses can do. -/

namespace Sys2Proof.Laws

open Sys2Proof.Machine

theorem contains_iff (r : AddrRange) (addr : Word16) :
    r.contains addr = true ↔ r.start ≤ addr.toNat ∧ addr.toNat < r.stop := by
  simp [AddrRange.contains]

theorem overlaps_iff (r q : AddrRange) : r.overlaps q = true ↔ r.start < q.stop ∧ q.start < r.stop := by
  simp [AddrRange.overlaps]

theorem rangeWf_iff (r : AddrRange) : rangeWf r = true ↔ r.start < r.stop ∧ r.stop ≤ 65536 := by
  unfold rangeWf
  rw [Bool.and_eq_true, decide_eq_true_iff, decide_eq_true_iff]
  rfl

/-- Two ranges that contain one address overlap. -/
theorem overlaps_of_contains {r q : AddrRange} {addr : Word16} (hr : r.contains addr = true)
    (hq : q.contains addr = true) : r.overlaps q = true := by
  rw [contains_iff] at hr hq
  rw [overlaps_iff]
  omega

/-- What `route` finds is a binding that contains the address. -/
theorem route_some {bs : List Binding} {addr : Word16} {b : Binding} (h : route bs addr = some b) :
    b ∈ bs ∧ b.range.contains addr = true :=
  ⟨List.mem_of_find?_eq_some h, by simpa using List.find?_some h⟩

/-- `route` finds nothing exactly where no binding contains the address. -/
theorem route_none_iff {bs : List Binding} {addr : Word16} :
    route bs addr = none ↔ ∀ b ∈ bs, b.range.contains addr = false := by
  simp [route]

/-- The bindings after a routed write keep their ranges. -/
theorem replaceRouted_ranges (bs : List Binding) (addr : Word16) (d : Device) :
    (replaceRouted bs addr d).map Binding.range = bs.map Binding.range := by
  induction bs with
  | nil => rfl
  | cons b bs ih =>
    simp only [replaceRouted]
    split <;> simp [ih]

/-- Every binding after a routed write is an old one, or the routed one with the new device. -/
theorem mem_replaceRouted {bs : List Binding} {addr : Word16} {d : Device} {c : Binding}
    (h : c ∈ replaceRouted bs addr d) :
    c ∈ bs ∨ ∃ b, route bs addr = some b ∧ c = { b with dev := d } := by
  induction bs with
  | nil => simp [replaceRouted] at h
  | cons b bs ih =>
    simp only [replaceRouted] at h
    split at h
    · rename_i hc
      rcases List.mem_cons.mp h with rfl | h
      · exact .inr ⟨b, by simp [route, hc], rfl⟩
      · exact .inl (List.mem_cons_of_mem _ h)
    · rename_i hc
      rcases List.mem_cons.mp h with rfl | h
      · exact .inl List.mem_cons_self
      · rcases ih h with h | ⟨e, he, rfl⟩
        · exact .inl (List.mem_cons_of_mem _ h)
        · exact .inr ⟨e, by simpa [route, List.find?_cons, hc] using he, rfl⟩

/-- Where ranges do not overlap, a routed write replaces the one routed binding's device and nothing else. -/
theorem replaceRouted_eq_map {bs : List Binding} {addr : Word16} {b : Binding} (d : Device)
    (apart : bs.Pairwise fun b c => b.range.overlaps c.range = false) (h : route bs addr = some b) :
    replaceRouted bs addr d = bs.map fun c => if c = b then { b with dev := d } else c := by
  induction bs with
  | nil => cases h
  | cons c bs ih =>
    obtain ⟨hc, apart⟩ := List.pairwise_cons.mp apart
    by_cases ha : c.range.contains addr = true
    · obtain rfl : c = b := by simpa [route, ha] using h
      have others : ∀ e ∈ bs, (if e = c then { c with dev := d } else e) = e := by
        intro e he
        rw [if_neg]
        rintro rfl
        exact absurd (overlaps_of_contains ha ha) (by rw [hc e he]; exact Bool.false_ne_true)
      simp only [replaceRouted, ha, if_true, List.map_cons, List.map_congr_left others, List.map_id']
    · have hr : route bs addr = some b := by simpa [route, List.find?_cons, ha] using h
      have ne : c ≠ b := fun e => ha (e ▸ (route_some hr).2)
      simp only [replaceRouted, ha, if_false, Bool.false_eq_true, List.map_cons, ne, ih apart hr]

/-- Everything a bus write can do (R60): an unmapped address, a device's error, or the routed device written. -/
theorem memWrite_cases (addr : Word16) (v : Byte) (s : State) :
    (route s.bindings addr = none ∧ memWrite addr v s = .error (.unmappedAddress addr)) ∨
    (∃ b e, route s.bindings addr = some b ∧ b.dev.writeByte (addr.toNat - b.range.start) v = .error e ∧
      memWrite addr v s = .error e) ∨
    (∃ b d, route s.bindings addr = some b ∧ b.dev.writeByte (addr.toNat - b.range.start) v = .ok d ∧
      memWrite addr v s = .ok { s with bindings := replaceRouted s.bindings addr d }) := by
  cases hr : route s.bindings addr with
  | none => exact .inl ⟨rfl, by simp [memWrite, hr]⟩
  | some b =>
    cases hw : b.dev.writeByte (addr.toNat - b.range.start) v with
    | error e => exact .inr (.inl ⟨b, e, rfl, hw, by simp [memWrite, hr, hw]⟩)
    | ok d => exact .inr (.inr ⟨b, d, rfl, hw, by simp [memWrite, hr, hw]⟩)

/-- Everything a bus read can do (R59). -/
theorem memRead_cases (addr : Word16) (s : State) :
    (route s.bindings addr = none ∧ memRead addr s = .error (.unmappedAddress addr)) ∨
    (∃ b, route s.bindings addr = some b ∧ memRead addr s = b.dev.readByte (addr.toNat - b.range.start)) := by
  cases hr : route s.bindings addr with
  | none => exact .inl ⟨rfl, by simp [memRead, hr]⟩
  | some b => exact .inr ⟨b, rfl, by simp [memRead, hr]⟩

/-- Everything an attach of a well-formed range can do (R56). -/
theorem attachBinding_cases (r : AddrRange) (d : Device) (bs : List Binding) :
    ((∃ b ∈ bs, r.overlaps b.range = true) ∧ attachBinding r d bs = .error (.overlappingAttachment r)) ∨
    ((∀ b ∈ bs, r.overlaps b.range = false) ∧ attachBinding r d bs = .ok (bs ++ [{ range := r, dev := d }])) := by
  cases h : bs.any fun b => r.overlaps b.range with
  | true => exact .inl ⟨List.any_eq_true.mp h, by simp only [attachBinding, h, if_true]⟩
  | false =>
    refine .inr ⟨fun b hb => by simpa using List.any_eq_false.mp h b hb, ?_⟩
    simp only [attachBinding, h, Bool.false_eq_true, if_false]

end Sys2Proof.Laws
end

