-- ==== Sys2Proof/Laws/Decode.lean ====
section
/-! SUPPORT. What decoding can answer. -/

namespace Sys2Proof.Laws

/-- Every value of `Instr` is well-formed: the type of `imm8` carries the check. -/
theorem instr_wf (i : Instr) : i.wf = true := by
  cases i with
  | hlt => rfl
  | lda imm8 => exact decide_eq_true imm8.isLt
  | tax => rfl

/-- The three opcode parameters are pairwise distinct (R5, R95). -/
theorem opcode_params_wf : opcodeRowsWf opHlt [opLdaImm, opTax] = true := by decide

@[simp] theorem decodeOpcode_hlt : decodeOpcode opHlt = .halt := by decide
@[simp] theorem decodeOpcode_ldaImm : decodeOpcode opLdaImm = .ldaImm := by decide
@[simp] theorem decodeOpcode_tax : decodeOpcode opTax = .tax := by decide

/-- A byte of no row is unsupported, and the answer carries that byte (R96, R97). -/
theorem decodeOpcode_other {b : Byte} (h : b ≠ opHlt) (l : b ≠ opLdaImm) (t : b ≠ opTax) :
    decodeOpcode b = .unsupported b := by
  simp [decodeOpcode, h, l, t]

/-- The four outcomes of an opcode byte. -/
theorem decodeOpcode_cases (b : Byte) :
    (b = opHlt ∧ decodeOpcode b = .halt) ∨ (b = opLdaImm ∧ decodeOpcode b = .ldaImm) ∨
    (b = opTax ∧ decodeOpcode b = .tax) ∨
    (b ≠ opHlt ∧ b ≠ opLdaImm ∧ b ≠ opTax ∧ decodeOpcode b = .unsupported b) := by
  by_cases h : b = opHlt
  · exact .inl ⟨h, h ▸ decodeOpcode_hlt⟩
  by_cases l : b = opLdaImm
  · exact .inr (.inl ⟨l, l ▸ decodeOpcode_ldaImm⟩)
  by_cases t : b = opTax
  · exact .inr (.inr (.inl ⟨t, t ▸ decodeOpcode_tax⟩))
  · exact .inr (.inr (.inr ⟨h, l, t, decodeOpcode_other h l t⟩))

@[simp] theorem decode_nil : decode [] = .error .noByte := rfl
@[simp] theorem decode_hlt (rest : List Byte) : decode (opHlt :: rest) = .ok (.hlt, rest) := by simp [decode]
@[simp] theorem decode_lda (v : Byte) (rest : List Byte) : decode (opLdaImm :: v :: rest) = .ok (.lda v, rest) := by
  simp [decode]
@[simp] theorem decode_lda_missing : decode [opLdaImm] = .error .missingOperand := by simp [decode]
@[simp] theorem decode_tax (rest : List Byte) : decode (opTax :: rest) = .ok (.tax, rest) := by simp [decode]

theorem decode_unsupported {b : Byte} (rest : List Byte) (h : b ≠ opHlt) (l : b ≠ opLdaImm) (t : b ≠ opTax) :
    decode (b :: rest) = .error (.unsupportedOpcode b) := by
  simp [decode, decodeOpcode_other h l t]

/-- An encoding is not empty, so a walk always goes forward. -/
theorem encode_length_pos (i : Instr) : 0 < (encode i).length := by
  cases i <;> simp [encode]

/-- No opcode has length 0. -/
theorem opcode_length_pos (o : Opcode) : 0 < o.length := by
  cases o <;> exact Nat.succ_pos _

/-- The length of an instruction's opcode is the number of its bytes (R94, R99). -/
theorem opcode_length_encode (i : Instr) : i.opcode.length = (encode i).length := by
  cases i <;> rfl

/-- Passing operand bytes is starting at the index after them. -/
theorem boundariesFrom_skip (bytes : List Byte) : ∀ index skip : Nat,
    boundariesFrom index skip bytes = boundariesFrom (index + skip) 0 (bytes.drop skip) := by
  induction bytes with
  | nil => intro index skip; simp [boundariesFrom]
  | cons b rest ih =>
    intro index skip
    cases skip with
    | zero => rfl
    | succ skip =>
      rw [boundariesFrom, ih, List.drop_succ_cons, Nat.add_right_comm, Nat.add_assoc]

/-- A walk that starts at a later index finds the boundaries later by as much. -/
theorem boundariesFrom_shift (bytes : List Byte) : ∀ index skip k : Nat,
    boundariesFrom (index + k) skip bytes = (boundariesFrom index skip bytes).map (· + k) := by
  induction bytes with
  | nil => intro index skip k; rfl
  | cons b rest ih =>
    intro index skip k
    cases skip with
    | zero => simp only [boundariesFrom, List.map_cons, Nat.add_right_comm index k 1, ih]
    | succ skip => simp only [boundariesFrom, Nat.add_right_comm index k 1, ih]

end Sys2Proof.Laws
end

