-- ==== Sys2Proof/Laws/State.lean ====
section
/-! SUPPORT. One lemma for each field under each update of the state, so that no later proof unfolds an update. -/

namespace Sys2Proof.Laws

open Sys2Proof.Machine

@[simp] theorem incPc_a (s : State) : (incPc s).a = s.a := rfl
@[simp] theorem incPc_x (s : State) : (incPc s).x = s.x := rfl
@[simp] theorem incPc_pc (s : State) : (incPc s).pc = s.pc + 1 := rfl
@[simp] theorem incPc_z (s : State) : (incPc s).z = s.z := rfl
@[simp] theorem incPc_n (s : State) : (incPc s).n = s.n := rfl
@[simp] theorem incPc_istate (s : State) : (incPc s).istate = s.istate := rfl
@[simp] theorem incPc_stream (s : State) : (incPc s).stream = s.stream := rfl
@[simp] theorem incPc_bindings (s : State) : (incPc s).bindings = s.bindings := rfl
@[simp] theorem incPc_pool (s : State) : (incPc s).pool = s.pool := rfl
@[simp] theorem incPc_fresh (s : State) : (incPc s).fresh = s.fresh := rfl

@[simp] theorem updateZeroFlag_a (v : Byte) (s : State) : (updateZeroFlag v s).a = s.a := rfl
@[simp] theorem updateZeroFlag_x (v : Byte) (s : State) : (updateZeroFlag v s).x = s.x := rfl
@[simp] theorem updateZeroFlag_pc (v : Byte) (s : State) : (updateZeroFlag v s).pc = s.pc := rfl
@[simp] theorem updateZeroFlag_z (v : Byte) (s : State) : (updateZeroFlag v s).z = (v == 0) := rfl
@[simp] theorem updateZeroFlag_n (v : Byte) (s : State) : (updateZeroFlag v s).n = s.n := rfl
@[simp] theorem updateZeroFlag_istate (v : Byte) (s : State) : (updateZeroFlag v s).istate = s.istate := rfl
@[simp] theorem updateZeroFlag_stream (v : Byte) (s : State) : (updateZeroFlag v s).stream = s.stream := rfl
@[simp] theorem updateZeroFlag_bindings (v : Byte) (s : State) : (updateZeroFlag v s).bindings = s.bindings := rfl
@[simp] theorem updateZeroFlag_pool (v : Byte) (s : State) : (updateZeroFlag v s).pool = s.pool := rfl
@[simp] theorem updateZeroFlag_fresh (v : Byte) (s : State) : (updateZeroFlag v s).fresh = s.fresh := rfl

@[simp] theorem updateNegativeFlag_a (v : Byte) (s : State) : (updateNegativeFlag v s).a = s.a := rfl
@[simp] theorem updateNegativeFlag_x (v : Byte) (s : State) : (updateNegativeFlag v s).x = s.x := rfl
@[simp] theorem updateNegativeFlag_pc (v : Byte) (s : State) : (updateNegativeFlag v s).pc = s.pc := rfl
@[simp] theorem updateNegativeFlag_z (v : Byte) (s : State) : (updateNegativeFlag v s).z = s.z := rfl
@[simp] theorem updateNegativeFlag_n (v : Byte) (s : State) : (updateNegativeFlag v s).n = v.getLsbD 7 := rfl
@[simp] theorem updateNegativeFlag_istate (v : Byte) (s : State) : (updateNegativeFlag v s).istate = s.istate := rfl
@[simp] theorem updateNegativeFlag_stream (v : Byte) (s : State) : (updateNegativeFlag v s).stream = s.stream := rfl
@[simp] theorem updateNegativeFlag_bindings (v : Byte) (s : State) : (updateNegativeFlag v s).bindings = s.bindings := rfl
@[simp] theorem updateNegativeFlag_pool (v : Byte) (s : State) : (updateNegativeFlag v s).pool = s.pool := rfl
@[simp] theorem updateNegativeFlag_fresh (v : Byte) (s : State) : (updateNegativeFlag v s).fresh = s.fresh := rfl

@[simp] theorem haltRun_a (s : State) : (haltRun s).a = s.a := rfl
@[simp] theorem haltRun_x (s : State) : (haltRun s).x = s.x := rfl
@[simp] theorem haltRun_pc (s : State) : (haltRun s).pc = s.pc := rfl
@[simp] theorem haltRun_z (s : State) : (haltRun s).z = s.z := rfl
@[simp] theorem haltRun_n (s : State) : (haltRun s).n = s.n := rfl
@[simp] theorem haltRun_istate (s : State) : (haltRun s).istate = IState.halted := rfl
@[simp] theorem haltRun_stream (s : State) : (haltRun s).stream = s.stream := rfl
@[simp] theorem haltRun_bindings (s : State) : (haltRun s).bindings = s.bindings := rfl
@[simp] theorem haltRun_pool (s : State) : (haltRun s).pool = s.pool := rfl
@[simp] theorem haltRun_fresh (s : State) : (haltRun s).fresh = s.fresh := rfl

@[simp] theorem loadSource_a (src : List Byte) (s : State) : (loadSource src s).a = s.a := rfl
@[simp] theorem loadSource_x (src : List Byte) (s : State) : (loadSource src s).x = s.x := rfl
@[simp] theorem loadSource_pc (src : List Byte) (s : State) : (loadSource src s).pc = s.pc := rfl
@[simp] theorem loadSource_z (src : List Byte) (s : State) : (loadSource src s).z = s.z := rfl
@[simp] theorem loadSource_n (src : List Byte) (s : State) : (loadSource src s).n = s.n := rfl
@[simp] theorem loadSource_istate (src : List Byte) (s : State) : (loadSource src s).istate = IState.running := rfl
@[simp] theorem loadSource_stream (src : List Byte) (s : State) : (loadSource src s).stream = some src := rfl
@[simp] theorem loadSource_bindings (src : List Byte) (s : State) : (loadSource src s).bindings = s.bindings := rfl
@[simp] theorem loadSource_pool (src : List Byte) (s : State) : (loadSource src s).pool = s.pool := rfl
@[simp] theorem loadSource_fresh (src : List Byte) (s : State) : (loadSource src s).fresh = s.fresh := rfl

@[simp] theorem setReg_a_a (v : Byte) (s : State) : (setReg .a v s).a = v := rfl
@[simp] theorem setReg_a_x (v : Byte) (s : State) : (setReg .a v s).x = s.x := rfl
@[simp] theorem setReg_a_pc (v : Byte) (s : State) : (setReg .a v s).pc = s.pc := rfl
@[simp] theorem setReg_a_z (v : Byte) (s : State) : (setReg .a v s).z = s.z := rfl
@[simp] theorem setReg_a_n (v : Byte) (s : State) : (setReg .a v s).n = s.n := rfl
@[simp] theorem setReg_a_istate (v : Byte) (s : State) : (setReg .a v s).istate = s.istate := rfl
@[simp] theorem setReg_a_stream (v : Byte) (s : State) : (setReg .a v s).stream = s.stream := rfl
@[simp] theorem setReg_a_bindings (v : Byte) (s : State) : (setReg .a v s).bindings = s.bindings := rfl
@[simp] theorem setReg_a_pool (v : Byte) (s : State) : (setReg .a v s).pool = s.pool := rfl
@[simp] theorem setReg_a_fresh (v : Byte) (s : State) : (setReg .a v s).fresh = s.fresh := rfl

@[simp] theorem setReg_x_a (v : Byte) (s : State) : (setReg .x v s).a = s.a := rfl
@[simp] theorem setReg_x_x (v : Byte) (s : State) : (setReg .x v s).x = v := rfl
@[simp] theorem setReg_x_pc (v : Byte) (s : State) : (setReg .x v s).pc = s.pc := rfl
@[simp] theorem setReg_x_z (v : Byte) (s : State) : (setReg .x v s).z = s.z := rfl
@[simp] theorem setReg_x_n (v : Byte) (s : State) : (setReg .x v s).n = s.n := rfl
@[simp] theorem setReg_x_istate (v : Byte) (s : State) : (setReg .x v s).istate = s.istate := rfl
@[simp] theorem setReg_x_stream (v : Byte) (s : State) : (setReg .x v s).stream = s.stream := rfl
@[simp] theorem setReg_x_bindings (v : Byte) (s : State) : (setReg .x v s).bindings = s.bindings := rfl
@[simp] theorem setReg_x_pool (v : Byte) (s : State) : (setReg .x v s).pool = s.pool := rfl
@[simp] theorem setReg_x_fresh (v : Byte) (s : State) : (setReg .x v s).fresh = s.fresh := rfl

@[simp] theorem writeRegFlags_a_a (v : Byte) (s : State) : (writeRegFlags .a v s).a = v := rfl
@[simp] theorem writeRegFlags_a_x (v : Byte) (s : State) : (writeRegFlags .a v s).x = s.x := rfl
@[simp] theorem writeRegFlags_a_pc (v : Byte) (s : State) : (writeRegFlags .a v s).pc = s.pc := rfl
@[simp] theorem writeRegFlags_a_z (v : Byte) (s : State) : (writeRegFlags .a v s).z = (v == 0) := rfl
@[simp] theorem writeRegFlags_a_n (v : Byte) (s : State) : (writeRegFlags .a v s).n = v.getLsbD 7 := rfl
@[simp] theorem writeRegFlags_a_istate (v : Byte) (s : State) : (writeRegFlags .a v s).istate = s.istate := rfl
@[simp] theorem writeRegFlags_a_stream (v : Byte) (s : State) : (writeRegFlags .a v s).stream = s.stream := rfl
@[simp] theorem writeRegFlags_a_bindings (v : Byte) (s : State) : (writeRegFlags .a v s).bindings = s.bindings := rfl
@[simp] theorem writeRegFlags_a_pool (v : Byte) (s : State) : (writeRegFlags .a v s).pool = s.pool := rfl
@[simp] theorem writeRegFlags_a_fresh (v : Byte) (s : State) : (writeRegFlags .a v s).fresh = s.fresh := rfl

@[simp] theorem writeRegFlags_x_a (v : Byte) (s : State) : (writeRegFlags .x v s).a = s.a := rfl
@[simp] theorem writeRegFlags_x_x (v : Byte) (s : State) : (writeRegFlags .x v s).x = v := rfl
@[simp] theorem writeRegFlags_x_pc (v : Byte) (s : State) : (writeRegFlags .x v s).pc = s.pc := rfl
@[simp] theorem writeRegFlags_x_z (v : Byte) (s : State) : (writeRegFlags .x v s).z = (v == 0) := rfl
@[simp] theorem writeRegFlags_x_n (v : Byte) (s : State) : (writeRegFlags .x v s).n = v.getLsbD 7 := rfl
@[simp] theorem writeRegFlags_x_istate (v : Byte) (s : State) : (writeRegFlags .x v s).istate = s.istate := rfl
@[simp] theorem writeRegFlags_x_stream (v : Byte) (s : State) : (writeRegFlags .x v s).stream = s.stream := rfl
@[simp] theorem writeRegFlags_x_bindings (v : Byte) (s : State) : (writeRegFlags .x v s).bindings = s.bindings := rfl
@[simp] theorem writeRegFlags_x_pool (v : Byte) (s : State) : (writeRegFlags .x v s).pool = s.pool := rfl
@[simp] theorem writeRegFlags_x_fresh (v : Byte) (s : State) : (writeRegFlags .x v s).fresh = s.fresh := rfl

@[simp] theorem placeTableWord_a (k w : Nat) (s : State) : (placeTableWord s k w).a = s.a := rfl
@[simp] theorem placeTableWord_x (k w : Nat) (s : State) : (placeTableWord s k w).x = s.x := rfl
@[simp] theorem placeTableWord_pc (k w : Nat) (s : State) : (placeTableWord s k w).pc = s.pc := rfl
@[simp] theorem placeTableWord_z (k w : Nat) (s : State) : (placeTableWord s k w).z = s.z := rfl
@[simp] theorem placeTableWord_n (k w : Nat) (s : State) : (placeTableWord s k w).n = s.n := rfl
@[simp] theorem placeTableWord_istate (k w : Nat) (s : State) : (placeTableWord s k w).istate = IState.running := rfl
@[simp] theorem placeTableWord_bindings (k w : Nat) (s : State) : (placeTableWord s k w).bindings = s.bindings := rfl
@[simp] theorem placeTableWord_pool (k w : Nat) (s : State) : (placeTableWord s k w).pool = s.pool := rfl
@[simp] theorem placeTableWord_fresh (k w : Nat) (s : State) : (placeTableWord s k w).fresh = s.fresh := rfl

@[simp] theorem getReg_a (s : State) : getReg .a s = s.a := rfl
@[simp] theorem getReg_x (s : State) : getReg .x s = s.x := rfl

/-- The read of a register that was written gives the value written; of the other, what it held. -/
theorem getReg_setReg (r q : Reg) (v : Byte) (s : State) :
    getReg q (setReg r v s) = if q = r then v else getReg q s := by
  cases r <;> cases q <;> rfl

/-- What a register write leaves alone, whichever register it is (R21). -/
theorem setReg_frame (r : Reg) (v : Byte) (s : State) :
    (setReg r v s).pc = s.pc ∧ (setReg r v s).z = s.z ∧ (setReg r v s).n = s.n ∧
    (setReg r v s).istate = s.istate ∧ (setReg r v s).stream = s.stream ∧
    (setReg r v s).bindings = s.bindings ∧ (setReg r v s).pool = s.pool ∧ (setReg r v s).fresh = s.fresh := by
  cases r <;> exact ⟨rfl, rfl, rfl, rfl, rfl, rfl, rfl, rfl⟩

end Sys2Proof.Laws
end

