-- ==== Sys2Proof/Laws/Step.lean ====
section
/-! SUPPORT. What fetching, the meanings and one step can do, each said once. -/

namespace Sys2Proof.Laws

open Sys2Proof.Machine

/-- A stream read depends on the stream alone. -/
theorem streamRead_congr {s t : State} (h : t.stream = s.stream) (i : Word16) : streamRead t i = streamRead s i := by
  simp [streamRead, streamBytes, h]

@[simp] theorem streamRead_incPc (s : State) (i : Word16) : streamRead (incPc s) i = streamRead s i := rfl

/-- `StreamRead` is absent exactly at and past the end of the stream (R52). -/
theorem streamRead_eq_none_iff (s : State) (i : Word16) : streamRead s i = none ↔ streamLength s ≤ i.toNat := by
  simp [streamRead, streamLength]

theorem fetchWindow_none {s : State} (h : streamRead s s.pc = none) : fetchWindow s = [] := by
  simp [fetchWindow, h]

theorem fetchWindow_some {s : State} {b : Byte} (h : streamRead s s.pc = some b) :
    fetchWindow s = b :: (streamRead s (s.pc + 1)).toList := by
  simp [fetchWindow, h]

theorem fetchWindow_last {s : State} {b : Byte} (h : streamRead s s.pc = some b)
    (h' : streamRead s (s.pc + 1) = none) : fetchWindow s = [b] := by
  rw [fetchWindow_some h, h']; rfl

theorem fetchWindow_pair {s : State} {b v : Byte} (h : streamRead s s.pc = some b)
    (h' : streamRead s (s.pc + 1) = some v) : fetchWindow s = [b, v] := by
  rw [fetchWindow_some h, h']; rfl

/-- No meaning faults or refuses: each answers a next state. -/
theorem exec_next (i : Instr) (s : State) : ∃ t, exec i s = .next t := by
  cases i <;> exact ⟨_, rfl⟩

/-- Everything a step can do in `Running`: the natural halt, an instruction at `pc` with its operand present, the error
of an opcode byte with no row, or the error of an absent operand. -/
theorem step_running_cases {s : State} (h : s.istate = .running) :
    (streamRead s s.pc = none ∧ step s = .next (haltRun s)) ∨
    (streamRead s s.pc = some opHlt ∧ step s = .next (haltRun s)) ∨
    (∃ v, streamRead s s.pc = some opLdaImm ∧ streamRead s (s.pc + 1) = some v ∧
      step s = .next (writeRegFlags .a v (incPc (incPc s)))) ∨
    (streamRead s s.pc = some opLdaImm ∧ streamRead s (s.pc + 1) = none ∧
      step s = .fault (.raised (.expectedParameter (s.pc + 1)) (incPc s))) ∨
    (streamRead s s.pc = some opTax ∧ step s = .next (writeRegFlags .x s.a (incPc s))) ∨
    (∃ b, streamRead s s.pc = some b ∧ b ≠ opHlt ∧ b ≠ opLdaImm ∧ b ≠ opTax ∧
      step s = .fault (.raised (.unsupportedOpcode b) (incPc s))) := by
  cases hb : streamRead s s.pc with
  | none => exact .inl ⟨rfl, by simp [step, h, fetchWindow_none hb]⟩
  | some b =>
    obtain ⟨rfl, -⟩ | ⟨rfl, -⟩ | ⟨rfl, -⟩ | ⟨nh, nl, nt, -⟩ := decodeOpcode_cases b
    · exact .inr (.inl ⟨rfl, by simp [step, h, fetchWindow_some hb, exec, execHlt]⟩)
    · cases hv : streamRead s (s.pc + 1) with
      | none =>
        exact .inr (.inr (.inr (.inl ⟨rfl, rfl, by
          simp [step, h, fetchWindow_last hb hv, raiseMissingOperand, raise]⟩)))
      | some v =>
        exact .inr (.inr (.inl ⟨v, rfl, rfl, by simp [step, h, fetchWindow_pair hb hv, exec, execLda]⟩))
    · exact .inr (.inr (.inr (.inr (.inl ⟨rfl, by simp [step, h, fetchWindow_some hb, exec, execTax]⟩))))
    · exact .inr (.inr (.inr (.inr (.inr ⟨b, rfl, nh, nl, nt, by
        simp [step, h, fetchWindow_some hb, decode_unsupported _ nh nl nt, raiseUnsupportedOpcode, raise]⟩))))

theorem step_unloaded {s : State} (h : s.istate = .unloaded) : step s = .fault (.raised .noSourceLoaded s) := by
  simp [step, h, raise]

theorem step_halted {s : State} (h : s.istate = .halted) : step s = .next s := by
  simp [step, h]

/-- `FetchOperand()` (R117): what it can do. -/
theorem fetchOperand_cases (s : State) :
    (streamRead s s.pc = none ∧ fetchOperand s = .error (.expectedParameter s.pc)) ∨
    (∃ v, streamRead s s.pc = some v ∧ fetchOperand s = .ok (v, incPc s)) := by
  cases h : streamRead s s.pc with
  | none => exact .inl ⟨rfl, by simp [fetchOperand, h]⟩
  | some v => exact .inr ⟨v, rfl, by simp [fetchOperand, h]⟩

end Sys2Proof.Laws
end

