-- ==== Sys2Proof/Laws/Extension.lean ====
section
/-! SUPPORT. What a handler, a cycle over a table and a step over a table can do, each said once. -/

namespace Sys2Proof.Laws

open Sys2Proof.Machine

/-! ## The handler's actions -/

theorem runHandler_fetch_none {k : Byte → Handler} {s : State} (h : streamRead s s.pc = none) :
    runHandler (.fetch k) s = .fault (.expectedParameter s.pc) s := by
  simp [runHandler, fetchOperand, h]

theorem runHandler_fetch_some {k : Byte → Handler} {s : State} {v : Byte} (h : streamRead s s.pc = some v) :
    runHandler (.fetch k) s = runHandler (k v) (incPc s) := by
  simp [runHandler, fetchOperand, h]

theorem runHandler_load_error {addr : Word16} {k : Byte → Handler} {s : State} {e : ErrorKind}
    (h : memRead addr s = .error e) : runHandler (.load addr k) s = .fault e s := by
  simp [runHandler, h]

theorem runHandler_load_ok {addr : Word16} {k : Byte → Handler} {s : State} {v : Byte}
    (h : memRead addr s = .ok v) : runHandler (.load addr k) s = runHandler (k v) s := by
  simp [runHandler, h]

theorem runHandler_store_error {addr : Word16} {v : Byte} {k : Handler} {s : State} {e : ErrorKind}
    (h : memWrite addr v s = .error e) : runHandler (.store addr v k) s = .fault e s := by
  simp [runHandler, h]

theorem runHandler_store_ok {addr : Word16} {v : Byte} {k : Handler} {s t : State}
    (h : memWrite addr v s = .ok t) : runHandler (.store addr v k) s = runHandler k t := by
  simp [runHandler, h]

/-- The induction over a handler's run, packaged once: a relation to the state it was entered in that holds at first and
that every action keeps holds of the state it leaves. -/
theorem runHandler_keeps (P : State → Prop)
    (fetch : ∀ s v, streamRead s s.pc = some v → P s → P (incPc s))
    (set : ∀ r v s, P s → P (setReg r v s))
    (zero : ∀ v s, P s → P (updateZeroFlag v s))
    (negative : ∀ v s, P s → P (updateNegativeFlag v s))
    (store : ∀ addr v s t, memWrite addr v s = .ok t → P s → P t) :
    ∀ (h : Handler) (s : State), P s → P (runHandler h s).after := by
  intro h
  induction h with
  | done => exact fun _ p => p
  | fetch k ih =>
    intro s p
    cases hv : streamRead s s.pc with
    | none => rw [runHandler_fetch_none hv]; exact p
    | some v => rw [runHandler_fetch_some hv]; exact ih v _ (fetch s v hv p)
  | get r k ih => exact fun s p => ih _ _ p
  | set r v k ih => exact fun s p => ih _ (set r v s p)
  | setZero v k ih => exact fun s p => ih _ (zero v s p)
  | setNegative v k ih => exact fun s p => ih _ (negative v s p)
  | load addr k ih =>
    intro s p
    cases hv : memRead addr s with
    | error e => rw [runHandler_load_error hv]; exact p
    | ok v => rw [runHandler_load_ok hv]; exact ih v _ p
  | store addr v k ih =>
    intro s p
    cases hv : memWrite addr v s with
    | error e => rw [runHandler_store_error hv]; exact p
    | ok t => rw [runHandler_store_ok hv]; exact ih _ (store addr v s t hv p)

/-- A handler does not change the status (R151). -/
theorem runHandler_istate (h : Handler) (s : State) : (runHandler h s).after.istate = s.istate := by
  refine runHandler_keeps (fun t => t.istate = s.istate) (fun _ _ _ p => p) (fun r v t p => ?_) (fun _ _ p => p)
    (fun _ _ p => p) (fun addr v t u hu p => ?_) h s rfl
  · rw [(setReg_frame r v t).2.2.2.1, p]
  · rcases memWrite_cases addr v t with ⟨_, he⟩ | ⟨_, _, _, _, he⟩ | ⟨_, _, _, _, he⟩
    · rw [he] at hu; cases hu
    · rw [he] at hu; cases hu
    · rw [he] at hu; cases hu; exact p

/-- A handler ends or raises; it does not halt the run (R118). -/
theorem runHandler_ne_halt (h : Handler) : ∀ s t : State, runHandler h s ≠ .halt t := by
  induction h with
  | done => intro s t e; cases e
  | fetch k ih =>
    intro s t
    cases hv : streamRead s s.pc with
    | none => rw [runHandler_fetch_none hv]; exact fun e => by cases e
    | some v => rw [runHandler_fetch_some hv]; exact ih v _ t
  | get r k ih => exact fun s t => ih _ _ t
  | set r v k ih => exact fun s t => ih _ t
  | setZero v k ih => exact fun s t => ih _ t
  | setNegative v k ih => exact fun s t => ih _ t
  | load addr k ih =>
    intro s t
    cases hv : memRead addr s with
    | error e => rw [runHandler_load_error hv]; exact fun e => by cases e
    | ok v => rw [runHandler_load_ok hv]; exact ih v _ t
  | store addr v k ih =>
    intro s t
    cases hv : memWrite addr v s with
    | error e => rw [runHandler_store_error hv]; exact fun e => by cases e
    | ok u => rw [runHandler_store_ok hv]; exact ih _ t

/-! ## The cycle and the step over a table -/

/-- Everything a cycle over a table can do: a halt in place, an unsupported opcode, or the byte's handler. -/
theorem cycleWith_cases (table : OpcodeTable) (s : State) :
    cycleWith table s = .halt (haltRun s) ∨
    (∃ b, streamRead s s.pc = some b ∧ b ≠ opHlt ∧ table.lookup b = none ∧
      cycleWith table s = .fault (.unsupportedOpcode b) (incPc s)) ∨
    (∃ b h, streamRead s s.pc = some b ∧ b ≠ opHlt ∧ table.lookup b = some h ∧
      cycleWith table s = runHandler h (incPc s)) := by
  cases hb : streamRead s s.pc with
  | none => exact .inl (by simp [cycleWith, hb])
  | some b =>
    by_cases hh : b = opHlt
    · exact .inl (by simp [cycleWith, hb, hh])
    · cases hl : table.lookup b with
      | none => exact .inr (.inl ⟨b, rfl, hh, hl, by simp [cycleWith, hb, hh, hl]⟩)
      | some h => exact .inr (.inr ⟨b, h, rfl, hh, hl, by simp [cycleWith, hb, hh, hl]⟩)

/-- No step over a table is refused. -/
theorem stepWith_ne_refused (table : OpcodeTable) (s : State) (r : Refusal) : stepWith table s ≠ .refused r := by
  unfold stepWith
  split
  · exact fun h => by cases h
  · exact fun h => by cases h
  · cases cycleWith table s <;> exact fun h => by cases h

/-- What a halt, the advance of `pc` and every handler keep, a step over any table keeps. -/
theorem stepWith_keeps (P : State → Prop) (table : OpcodeTable) (halt : ∀ s, s.istate = .running → P s → P (haltRun s))
    (advance : ∀ s, P s → P (incPc s)) (handler : ∀ h s, P s → P (runHandler h s).after)
    {s t : State} (p : P s) (h : stateAfter (stepWith table s) = some t) : P t := by
  have after : ∀ r : StepResult, stateAfter r.toOutcome = some r.after := by intro r; cases r <;> rfl
  unfold stepWith at h
  split at h
  · cases h; exact p
  · cases h; exact p
  · rename_i hr
    rw [after] at h
    cases h
    rcases cycleWith_cases table s with hc | ⟨b, _, _, _, hc⟩ | ⟨b, k, _, _, _, hc⟩ <;> rw [hc]
    · exact halt s hr p
    · exact advance s p
    · exact handler k _ (advance s p)

end Sys2Proof.Laws
end

