-- ==== Sys2Proof/Laws/Host.lean ====
section
/-! SUPPORT. The host's devices by their names: where names are distinct, a name finds its one device and replacing by the
name replaces that device alone. -/

namespace Sys2Proof.Laws

open Sys2Proof.Machine

/-- In a list of devices with distinct names a name finds its device. -/
theorem find_device {ds : List Device} (hn : (ds.map Device.id).Nodup) {d : Device} (hd : d ∈ ds) :
    (ds.find? fun c => c.id == d.id) = some d := by
  induction ds with
  | nil => cases hd
  | cons c ds ih =>
    obtain ⟨hc, hn⟩ := List.nodup_cons.mp hn
    rcases List.mem_cons.mp hd with rfl | hd
    · simp
    · have ne : c.id ≠ d.id := fun e => hc (e ▸ List.mem_map_of_mem hd)
      rw [List.find?_cons_of_neg (by simpa using ne), ih hn hd]

/-- In a list of devices with distinct names, equal names are equal devices. -/
theorem device_id_inj {ds : List Device} (hn : (ds.map Device.id).Nodup) {c d : Device} (hc : c ∈ ds) (hd : d ∈ ds) :
    c.id = d.id ↔ c = d :=
  ⟨fun e => List.inj_on_of_nodup_map hn hc hd e, fun e => e ▸ rfl⟩

theorem pool_names {s : State} (h : s.Inv) : (s.pool.map Device.id).Nodup := by
  have := h.names.1
  rw [State.devices, List.map_append] at this
  exact this.of_append_left

theorem pool_mem_devices {s : State} {d : Device} (hd : d ∈ s.pool) : d ∈ s.devices := List.mem_append_left _ hd

theorem binding_mem_devices {s : State} {b : Binding} (hb : b ∈ s.bindings) : b.dev ∈ s.devices :=
  List.mem_append_right _ (List.mem_map_of_mem hb)

/-- A device of the host is found by its name. -/
theorem poolDevice_of_mem {s : State} (h : s.Inv) {d : Device} (hd : d ∈ s.pool) : poolDevice d.id s = some d :=
  find_device (pool_names h) hd

/-- Any device is found by its name. -/
theorem anyDevice_of_mem {s : State} (h : s.Inv) {d : Device} (hd : d ∈ s.devices) : anyDevice d.id s = some d :=
  find_device h.names.1 hd

/-- A name that none of the host's devices has finds none. -/
theorem poolDevice_none {s : State} {id : Nat} (h : ∀ d ∈ s.pool, d.id ≠ id) : poolDevice id s = none :=
  List.find?_eq_none.mpr fun d hd => by simpa using h d hd

/-- A name that no device has finds none. -/
theorem anyDevice_none {s : State} {id : Nat} (h : ∀ d ∈ s.devices, d.id ≠ id) : anyDevice id s = none :=
  List.find?_eq_none.mpr fun d hd => by simpa using h d hd

/-- Replacing by a device's name replaces that device alone. -/
theorem setPoolDevice_of_mem {s : State} (h : s.Inv) {d : Device} (hd : d ∈ s.pool) (d' : Device) :
    setPoolDevice d.id d' s = { s with pool := s.pool.map fun c => if c = d then d' else c } := by
  unfold setPoolDevice
  congr 1
  exact List.map_congr_left fun c hc => by simp only [device_id_inj (pool_names h) hc hd]

/-- Two bindings of one state with the same device are one binding. -/
theorem binding_dev_inj {s : State} (h : s.Inv) {b c : Binding} (hb : b ∈ s.bindings) (hc : c ∈ s.bindings)
    (e : b.dev.id = c.dev.id) : b = c := by
  have := h.names.1
  rw [State.devices, List.map_append, List.map_map] at this
  exact List.inj_on_of_nodup_map this.of_append_right hb hc e

end Sys2Proof.Laws
end

