-- ==== Sys2Proof/Laws/PerInstr.lean ====
section
/-! SUPPORT. The family of lemmas made per instruction: the first byte of an encoding selects the instruction's opcode
and the encoding has that opcode's length (R90, R99). -/

namespace Sys2Proof.Laws

/-- The encoding starts with a byte that `decodeOpcode` reads as the instruction's opcode, and its length is the one
that opcode gives (R90, R99). -/
def EncodingShape.Statement (i : Instr) : Prop :=
  ((encode i).head?.map decodeOpcode = some i.opcode) ∧ (encode i).length = i.opcode.length

theorem EncodingShape.hlt : EncodingShape.Statement .hlt := ⟨by simp [encode, Instr.opcode], rfl⟩

theorem EncodingShape.lda (imm8 : Byte) : EncodingShape.Statement (.lda imm8) :=
  ⟨by simp [encode, Instr.opcode], rfl⟩

theorem EncodingShape.tax : EncodingShape.Statement .tax := ⟨by simp [encode, Instr.opcode], rfl⟩

end Sys2Proof.Laws
end

