-- ==== Sys2Proof/Laws/Run.lean ====
section
/-! SUPPORT. The host's iteration of steps, and the induction over a run packaged once. -/

namespace Sys2Proof.Laws

open Sys2Proof.Machine

theorem iterateSteps_zero (s : State) : iterateSteps 0 s = .next s := Host.Core.run.eq_1 _ _

theorem iterateSteps_next {s t : State} (n : Nat) (h : step s = .next t) :
    iterateSteps (n + 1) s = iterateSteps n t := by
  refine (Host.Core.run.eq_def Sys2Proof.core (n + 1) s).trans ?_
  have h' : Sys2Proof.core.step s = .next t := h
  simp only [h']
  rfl

theorem iterateSteps_fault {s : State} {f : Fault} (n : Nat) (h : step s = .fault f) :
    iterateSteps (n + 1) s = .fault f := by
  refine (Host.Core.run.eq_def Sys2Proof.core (n + 1) s).trans ?_
  have h' : Sys2Proof.core.step s = .fault f := h
  simp only [h']
  rfl

theorem runLoop_zero (s : State) : runLoop 0 s = .unfinished s := rfl

theorem runLoop_succ (fuel : Nat) (s : State) :
    runLoop (fuel + 1) s =
      match step s with
      | .next t => if t.istate = .halted then .ok t else runLoop fuel t
      | .fault (.raised e t) => .error e t
      | .refused r => .refused r := rfl

theorem interpret_eq (fuel : Nat) (s : State) :
    interpret fuel s =
      match s.istate with
      | .unloaded => .error .noSourceLoaded s
      | .halted => .ok s
      | .running => runLoop fuel s := rfl

/-- What every step keeps, an error's state included, a run over those steps keeps. -/
theorem runLoopOf_keeps {next : State → Host.Outcome State Fault Refusal} (P : State → Prop)
    (keep : ∀ s t, P s → stateAfter (next s) = some t → P t) :
    ∀ (fuel : Nat) (s t : State), P s → (runLoopOf next fuel s).after = some t → P t := by
  intro fuel
  induction fuel with
  | zero => intro s t p h; cases h; exact p
  | succ n ih =>
    intro s t p h
    simp only [runLoopOf] at h
    split at h
    · rename_i u hu
      have pu := keep s u p (by rw [hu]; rfl)
      split at h
      · cases h; exact pu
      · exact ih u t pu h
    · rename_i e u hu
      cases h
      exact keep s _ p (by rw [hu]; rfl)
    · cases h

/-- What every step keeps, `interpret()` over those steps keeps. -/
theorem interpretOf_keeps {next : State → Host.Outcome State Fault Refusal} (P : State → Prop)
    (keep : ∀ s t, P s → stateAfter (next s) = some t → P t)
    {fuel : Nat} {s t : State} (p : P s) (h : (interpretOf next fuel s).after = some t) : P t := by
  unfold interpretOf at h
  split at h
  · cases h; exact p
  · cases h; exact p
  · exact runLoopOf_keeps P keep _ _ _ p h

/-- The errors a run returns are those of its steps. -/
theorem runLoopOf_error {next : State → Host.Outcome State Fault Refusal} (Q : ErrorKind → Prop)
    (raises : ∀ s e t, next s = .fault (.raised e t) → Q e) :
    ∀ (fuel : Nat) (s : State) (e : ErrorKind) (t : State), runLoopOf next fuel s = .error e t → Q e := by
  intro fuel
  induction fuel with
  | zero => intro s e t h; cases h
  | succ n ih =>
    intro s e t h
    simp only [runLoopOf] at h
    split at h
    · split at h
      · cases h
      · exact ih _ _ _ h
    · rename_i e' u hu
      cases h
      exact raises s _ _ hu
    · cases h

/-- The errors `interpret()` returns: `NoSourceLoaded`, and those of the steps. -/
theorem interpretOf_error {next : State → Host.Outcome State Fault Refusal} (Q : ErrorKind → Prop)
    (unloaded : Q .noSourceLoaded) (raises : ∀ s e t, next s = .fault (.raised e t) → Q e)
    {fuel : Nat} {s : State} {e : ErrorKind} {t : State} (h : interpretOf next fuel s = .error e t) : Q e := by
  unfold interpretOf at h
  split at h
  · cases h; exact unloaded
  · cases h
  · exact runLoopOf_error Q raises _ _ _ _ h

/-- Where no step is refused no run is. -/
theorem interpretOf_ne_refused {next : State → Host.Outcome State Fault Refusal} (total : ∀ s r, next s ≠ .refused r)
    (fuel : Nat) (s : State) (r : Refusal) : interpretOf next fuel s ≠ .refused r := by
  have loop : ∀ (fuel : Nat) (s : State), runLoopOf next fuel s ≠ .refused r := by
    intro fuel
    induction fuel with
    | zero => exact fun s h => by cases h
    | succ n ih =>
      intro s h
      simp only [runLoopOf] at h
      split at h
      · split at h
        · cases h
        · exact ih _ h
      · cases h
      · rename_i q hq
        exact total s q hq
  intro h
  unfold interpretOf at h
  split at h
  · cases h
  · cases h
  · exact loop fuel s h

/-- Two steps that agree everywhere run alike. -/
theorem interpretOf_congr {next next' : State → Host.Outcome State Fault Refusal} (h : ∀ s, next s = next' s)
    (fuel : Nat) (s : State) : interpretOf next fuel s = interpretOf next' fuel s := by
  rw [show next = next' from funext h]

/-- A run as the host calls it leaves the state that the run leaves. -/
theorem hostStepOf_interpret_after (run : Nat → State → RunResult) (fuel : Nat) (s : State) :
    (hostStepOf run (.interpret fuel) s).after = (run fuel s).after := by
  simp only [hostStepOf]
  cases run fuel s <;> rfl

/-- The memories of the reset state are canonical: there are none. -/
theorem reset_memory_wf : ∀ d ∈ State.reset.devices, Memory.wf d.store := by
  intro d h
  cases h

end Sys2Proof.Laws
end

