-- ==== Sys2Proof/Tests/Slice0.lean ====
section
/-! SUPPORT. The model's own tests. Expected results are the spec's: the vectors of spec/95_test_vectors.md, named in each
comment, and words written out from spec/30_encoding.md. The theorems named `witness_…` show that the hypotheses of a
statement of `Certificates/Slice0/Obligations.lean` can be met together. -/

namespace Sys2Proof.Tests

open Sys2Proof.Machine Sys2Proof.Laws

/-! ## Helpers -/

/-- A running machine with a stream and a Cpu, and nothing attached: the states of the spec's vectors. -/
def cpu (stream : List Byte) (pc : Word16) (a x : Byte) (z n : Bool) : State :=
  { State.reset with stream := some stream, istate := .running, pc := pc, a := a, x := x, z := z, n := n }

/-- The Ram of the device vectors: capacity 8, loaded with 10 to 17. -/
def ram8 : Device :=
  { newDevice 0 .ram 8 0 with
    store := [(0, 0x10), (1, 0x11), (2, 0x12), (3, 0x13), (4, 0x14), (5, 0x15), (6, 0x16), (7, 0x17)] }

/-- The Rom of the device vectors: capacity 4, loaded with E0 to E3. -/
def rom4 : Device := { newDevice 1 .rom 4 1 with store := [(0, 0xE0), (1, 0xE1), (2, 0xE2), (3, 0xE3)] }

/-- A Ram that nothing has written and that the host still holds. -/
def spare : Device := newDevice 2 .ram 16 2

/-- The Ram at [0x0000, 0x0010), a range longer than the device, the Rom at [0x8000, 0x8004), and the spare device in
the host's hands. -/
def board : State :=
  { cpu [0xA9, 0xC0, 0xAA, 0x00] 0 0 0 false false with
    bindings := [⟨⟨0x0000, 0x0010⟩, ram8⟩, ⟨⟨0x8000, 0x8004⟩, rom4⟩], pool := [spare], fresh := 3 }

/-- The devices of the vectors, both in the host's hands. -/
def bench : State := { State.reset with pool := [ram8, rom4], fresh := 2 }

/-- The machine after the creation of a Ram and of a Rom and the load of a stream (R192). -/
def built : State :=
  { cpu [0xAA] 0 0x80 0 false false with
    pool := [newDevice 0 .ram Config.ramCapacity 0, newDevice 1 .rom Config.romCapacity 1], fresh := 2 }

/-- A handler of the tests, of no instruction of the spec: the byte at the bus address its 16-bit operand gives, into `A`
with the flags. -/
def loadFrom : Handler := .fetchWord fun addr => .load addr fun v => .writeFlags .a v

/-- A handler of the tests: `A` to the bus address its 16-bit operand gives. -/
def storeTo : Handler := .fetchWord fun addr => .get .a fun v => .store addr v .done

/-- The table with two added rows. -/
def addedTable : OpcodeTable := baseTable ++ [(0x01, loadFrom), (0x02, storeTo)]

/-- The board with another stream. -/
def boardWith (stream : List Byte) : State := { board with stream := some stream }

/-! ## Decoding (30_encoding.md R94, R97, R99; words written out bit by bit) -/

theorem test_decode_hlt : decode [0b00000000] = .ok (.hlt, []) := by decide
theorem test_decode_lda : decode [0b10101001, 0b10000001] = .ok (.lda 0x81, []) := by decide
theorem test_decode_lda_zero_operand : decode [0xA9, 0x00, 0xAA] = .ok (.lda 0x00, [0xAA]) := by decide
theorem test_decode_tax : decode [0b10101010] = .ok (.tax, []) := by decide
theorem test_decode_truncated : decode [0xA9] = .error .missingOperand := by decide
theorem test_decode_nop_of_6502 : decode [0xEA, 0x00] = .error (.unsupportedOpcode 0xEA) := by decide
theorem test_decode_last_byte_ldx : decode [0xA2] = .error (.unsupportedOpcode 0xA2) := by decide
theorem test_decode_empty : decode [] = .error .noByte := by decide

/-- V16, V22 and the neighbours of the handlers' bytes. -/
theorem test_decode_neighbours :
    decodeOpcode 0x01 = .unsupported 0x01 ∧ decodeOpcode 0xA8 = .unsupported 0xA8 ∧
      decodeOpcode 0xAB = .unsupported 0xAB ∧ decodeOpcode 0xFF = .unsupported 0xFF := by decide

theorem test_table_word_lda : decodeTableWord 16 0xC0A9 = some (.lda 0xC0) := by decide
theorem test_table_word_short_lda : decodeTableWord 8 0xA9 = some (.lda 0x00) := by decide
theorem test_table_word_tax : decodeTableWord 8 0xAA = some .tax := by decide
theorem test_table_word_hlt : decodeTableWord 8 0x00 = some .hlt := by decide

/-- The bytes of program P1. -/
theorem test_assemble_p1 : assemble [.lda 0xC0, .tax, .hlt] = [0xA9, 0xC0, 0xAA, 0x00] := by decide

/-- P5: the walk goes on past the unsupported byte 02. -/
theorem test_boundaries_p5 : boundaries [0xA9, 0xFF, 0x02, 0xAA, 0x00] = [0, 2, 3, 4] := by decide
/-- A truncated `LDA #` at the end of the stream (V8) is a boundary too. -/
theorem test_boundaries_truncated : boundaries [0xAA, 0xA9] = [0, 1] := by decide

/-- The spelling of program P1 (R100). -/
theorem test_asm_lda : asmLine (.lda 0xC0) = "LDA #$C0" := by decide

/-! ## Well-formedness: what each check refuses -/

/-- Two rows claim one byte (R157). -/
theorem test_rows_twice_refused : opcodeRowsWf opHlt [0xA9, 0xAA, 0xA9] = false := by decide
/-- A row claims the halt byte (R150). -/
theorem test_rows_halt_refused : opcodeRowsWf opHlt [0xA9, 0x00] = false := by decide
theorem test_rows_base_accepted : baseTable.wf = true := by decide
/-- B17: empty, inverted and over-long ranges. -/
theorem test_ranges_refused :
    rangeWf ⟨0x0800, 0x0800⟩ = false ∧ rangeWf ⟨0x0900, 0x0800⟩ = false ∧ rangeWf ⟨0xFF00, 0x10001⟩ = false := by decide
theorem test_range_full_accepted : rangeWf ⟨0x0000, 0x10000⟩ = true := by decide
/-- A source of 65537 bytes is refused, one of 65536 admitted (R51). -/
theorem test_source_lengths :
    sourceWf (List.replicate 65537 0x00) = false ∧ sourceWf (List.replicate 65536 0x00) = true :=
  ⟨decide_eq_false (by rw [List.length_replicate]; decide), decide_eq_true (by rw [List.length_replicate]; decide)⟩

/-! ## Steps -/

/-- V1. -/
theorem test_lda_zero : step (cpu [0xA9, 0x00] 0 0x55 0x11 false true) = .next (cpu [0xA9, 0x00] 2 0x00 0x11 true false) := rfl
/-- V10. -/
theorem test_tax_negative : step (cpu [0xAA] 0 0xC0 0x11 true false) = .next (cpu [0xAA] 1 0xC0 0xC0 false true) := rfl
/-- V13. -/
theorem test_tax_zero : step (cpu [0xAA] 0 0x00 0x00 false true) = .next (cpu [0xAA] 1 0x00 0x00 true false) := rfl
/-- V15. -/
theorem test_hlt_in_place :
    step (cpu [0x00] 0 0x12 0x34 true false) = .next { cpu [0x00] 0 0x12 0x34 true false with istate := .halted } := rfl
/-- V9, the instruction: `pc` wraps between the opcode and the end. -/
theorem test_lda_wraps : exec (.lda 0x42) (cpu [] 0xFFFF 0 0 false false) = .next (cpu [] 0x0001 0x42 0 false false) := rfl
/-- V8. -/
theorem test_missing_operand :
    step (cpu [0xAA, 0xA9] 1 0x33 0x44 false false) =
      .fault (.raised (.expectedParameter 2) (cpu [0xAA, 0xA9] 2 0x33 0x44 false false)) := rfl
/-- V16. -/
theorem test_unsupported :
    step (cpu [0xFF] 0 0x12 0x34 true false) =
      .fault (.raised (.unsupportedOpcode 0xFF) (cpu [0xFF] 1 0x12 0x34 true false)) := rfl
/-- V17. -/
theorem test_empty_stream_halts : step (cpu [] 0 0 0 false false) = .next { cpu [] 0 0 0 false false with istate := .halted } := rfl
/-- V23. -/
theorem test_reset_has_no_source : step State.reset = .fault (.raised .noSourceLoaded State.reset) := rfl
/-- V24. -/
theorem test_halted_again :
    interpret 5 { cpu [0x00] 0 0x12 0x34 true false with istate := .halted } =
      .ok { cpu [0x00] 0 0x12 0x34 true false with istate := .halted } := rfl
/-- V4, as the first instruction after reset, placed as a table word. -/
theorem test_fetch_word_lda :
    step (State.reset.withFetchWord 16 0x80A9) = .next (cpu [0xA9, 0x80] 2 0x80 0 false true) := rfl

/-- F12. -/
theorem test_pc_wraps : (incPc (cpu [] 0xFFFF 0 0 false false)).pc = 0 := by decide
/-- F13, F15: the host's set wraps and leaves the flags stale. -/
theorem test_set_wraps : hostSetReg .a 0x1FF (cpu [] 0 0 0 false false) = cpu [] 0 0xFF 0 false false := by decide
/-- F3, F7. -/
theorem test_flag_updates :
    (updateZeroFlag 0x80 (cpu [] 0 0 0 true false)).z = false ∧ (updateNegativeFlag 0x80 (cpu [] 0 0 0 false false)).n = true := by
  decide
theorem test_error_codes : errorCode (.unmappedAddress 0) = some 5 ∧ errorCode (.readOnlyWrite 0) = none := by decide

/-! ## Devices and the bus -/

/-- M1. -/
theorem test_ram_load :
    (ram8.load 2 [0x01, 0x02, 0x03]).map Device.store =
      .ok [(0, 0x10), (1, 0x11), (2, 0x01), (3, 0x02), (4, 0x03), (5, 0x15), (6, 0x16), (7, 0x17)] := rfl
/-- M2, M4. -/
theorem test_ram_load_too_long :
    ram8.load 6 [0x01, 0x02, 0x03] = .error (.outOfRangeAccess 8) ∧ ram8.load 9 [] = .error (.outOfRangeAccess 9) := ⟨rfl, rfl⟩
/-- M3. -/
theorem test_ram_load_nothing : ram8.load 8 [] = .ok ram8 := rfl
/-- M5. -/
theorem test_ram_read : ram8.readByte 7 = .ok 0x17 ∧ ram8.readByte 8 = .error (.outOfRangeAccess 8) := ⟨rfl, rfl⟩
/-- M9, M10, M11. -/
theorem test_rom_write :
    rom4.writeByte 1 0x55 = .ok rom4 ∧ rom4.writeByteUnder .fault 1 0x55 = .error (.readOnlyWrite 1) ∧
      rom4.writeByte 4 0x55 = .error (.outOfRangeAccess 4) := ⟨rfl, rfl, rfl⟩
/-- M12. -/
theorem test_rom_load :
    (rom4.load 0 [0xF0, 0xF1, 0xF2, 0xF3]).map Device.store = .ok [(0, 0xF0), (1, 0xF1), (2, 0xF2), (3, 0xF3)] := rfl
/-- M6, the dump of a device all of whose bytes are written. -/
theorem test_rom_dump : rom4.dump = [0xE0, 0xE1, 0xE2, 0xE3] := by decide
/-- B6 and B4, on a smaller map. -/
theorem test_bus_read :
    memRead 0x8000 board = .ok 0xE0 ∧ memRead 0x0900 board = .error (.unmappedAddress 0x0900) := by decide
/-- B15: a range longer than its device. -/
theorem test_bus_read_past_device : memRead 0x0008 board = .error (.outOfRangeAccess 8) := rfl
/-- B8. -/
theorem test_bus_write :
    hostStep (.busWrite 0x0003 0xAB) board =
      .ok .unit { board with bindings := replaceRouted board.bindings 0x0003 { ram8 with store := Memory.write ram8.store 3 0xAB } } := rfl
/-- B11: an overlapping range. -/
theorem test_attach_overlap :
    hostStep (.attach ⟨0x000F, 0x0020⟩ 2) board = .error (.overlappingAttachment ⟨0x000F, 0x0020⟩) board := rfl
/-- B12: a range that only touches. -/
theorem test_attach_touching :
    hostStep (.attach ⟨0x0010, 0x0020⟩ 2) board =
      .ok .unit { board with bindings := board.bindings ++ [⟨⟨0x0010, 0x0020⟩, spare⟩], pool := [] } := rfl
/-- U24: the host no longer holds an attached device. -/
theorem test_load_attached_refused : hostStep (.deviceLoad 0 0 [0x01]) board = .refused (.deviceNotHeld 0) := rfl

/-- R190: a device reset where it is bound keeps its name, kind, capacity and range. -/
theorem test_reset_bound_device :
    hostStep (.resetDevice 1) board =
      .ok .unit { board with bindings := [⟨⟨0x0000, 0x0010⟩, ram8⟩, ⟨⟨0x8000, 0x8004⟩, newDevice 1 .rom 4 3⟩], fresh := 4 } := rfl
/-- R37: a creation gives the device the capacity of its type. -/
theorem test_create_devices :
    hostStep (.createDevice .ram) State.reset =
        .ok (.device 0) { State.reset with pool := [newDevice 0 .ram Config.ramCapacity 0], fresh := 1 } ∧
      hostStep (.createDevice .rom) { State.reset with pool := [newDevice 0 .ram Config.ramCapacity 0], fresh := 1 } =
        .ok (.device 1) { State.reset with
          pool := [newDevice 0 .ram Config.ramCapacity 0, newDevice 1 .rom Config.romCapacity 1], fresh := 2 } := ⟨rfl, rfl⟩
/-- R195, M1: the host's load of a device it holds. -/
theorem test_host_load :
    hostStep (.deviceLoad 1 0 [0xF0, 0xF1, 0xF2, 0xF3]) bench =
      .ok .unit { bench with pool := [ram8, { rom4 with store := [(0, 0xF0), (1, 0xF1), (2, 0xF2), (3, 0xF3)] }] } := rfl

/-! ## Runs over a table with added handlers (R68, R69, R154, R165, R168) -/

/-- R165's unmapped address 0x0900: the run returns the Bus's error, with `pc` past the operand and the status `Running`. -/
theorem test_extended_run_unmapped :
    interpretWith addedTable 5 (boardWith [0x01, 0x00, 0x09, 0xAA]) =
      .error (.unmappedAddress 0x0900) { boardWith [0x01, 0x00, 0x09, 0xAA] with pc := 3 } := rfl
/-- B15 through a handler: the device's error, with the local offset. -/
theorem test_extended_run_out_of_range :
    interpretWith addedTable 5 (boardWith [0x02, 0x08, 0x00]) =
      .error (.outOfRangeAccess 8) { boardWith [0x02, 0x08, 0x00] with pc := 3 } := rfl
/-- The byte E0 of the Rom at 0x8000 is loaded, and the run goes on to its end. -/
theorem test_extended_run_ends :
    interpretWith addedTable 5 (boardWith [0x01, 0x00, 0x80]) =
      .ok { boardWith [0x01, 0x00, 0x80] with pc := 3, a := 0xE0, n := true, istate := .halted } := rfl

/-! ## Witnesses: the hypotheses of the statements can be met -/

theorem witness_DecodeIsTheInverseOfEncode : (Instr.lda 0xFF).wf = true ∧ decode [0xA9, 0xFF] = .ok (.lda 0xFF, []) := by decide

theorem witness_DisassembleAgreesWithAssemble :
    disassemble [0xA9, 0xC0, 0xAA, 0x00] = .ok [.lda 0xC0, .tax, .hlt] ∧ 2 < [Instr.lda 0xC0, .tax, .hlt].length := by decide

/-- `StepFollowsTheCycle`, `RunIsTheIterationOfSteps`: a running state. -/
theorem witness_running : board.istate = .running := rfl

theorem witness_StepRunsTheDecodedInstruction :
    board.istate = .running ∧ decode (fetchWindow board) = .ok (.lda 0xC0, []) := ⟨rfl, rfl⟩

/-- At the boundary `pc = L`, and past it. -/
theorem witness_NaturalHaltAtTheEndOfTheStream :
    streamLength (cpu [0xAA] 1 0 0 false false) ≤ (cpu [0xAA] 1 0 0 false false).pc.toNat ∧
      streamLength (cpu [0xAA] 0x1234 0 0 false false) ≤ (cpu [0xAA] 0x1234 0 0 false false).pc.toNat := by decide

theorem witness_HaltEndsTheRunInPlace :
    (cpu [0x00] 0 0 0 false false).istate = .running ∧ streamRead (cpu [0x00] 0 0 0 false false) 0 = some opHlt := ⟨rfl, rfl⟩

/-- The operand present, and absent. -/
theorem witness_LoadAccumulatorImmediate :
    board.istate = .running ∧ streamRead board board.pc = some opLdaImm ∧ streamRead board (board.pc + 1) = some 0xC0 ∧
      streamRead (cpu [0xA9] 0 0 0 false false) 0 = some opLdaImm ∧
      streamRead (cpu [0xA9] 0 0 0 false false) 1 = none := ⟨rfl, rfl, rfl, rfl, rfl⟩

theorem witness_TransferAccumulatorToIndex :
    (cpu [0xAA] 0 0x80 0 false false).istate = .running ∧
      streamRead (cpu [0xAA] 0 0x80 0 false false) 0 = some opTax := ⟨rfl, rfl⟩

/-- `InstructionFrames`, `ProgramCounterAdvance`: each instruction answers a next state. -/
theorem witness_exec_next :
    exec .hlt board = .next (haltRun board) ∧
      exec (.lda 0xFF) board = .next { board with pc := 2, a := 0xFF, z := false, n := true } ∧
      exec .tax board = .next { board with pc := 1, x := 0, z := true, n := false } := ⟨rfl, rfl, rfl⟩

theorem witness_FlagsReflectTheWrittenRegister :
    board.istate = .running ∧ step board = .next { board with pc := 2, a := 0xC0, n := true } := ⟨rfl, rfl⟩

theorem witness_ZeroAndNegativeExclude :
    Instr.tax ≠ .hlt ∧ exec .tax board = .next { board with pc := 1, z := true } ∧ board.FlagsExclusive ∧
      stateAfter (step board) = some { board with pc := 2, a := 0xC0, n := true } :=
  ⟨by decide, rfl, rfl, rfl⟩

/-- `ErrorsArePrecise`, `RunsResumeAfterAnError`: a step that raises either error. -/
theorem witness_step_raises :
    step (cpu [0xA9] 0 7 8 false false) = .fault (.raised (.expectedParameter 1) (cpu [0xA9] 1 7 8 false false)) ∧
      step (cpu [0x01, 0x00] 0 0 0 false false) =
        .fault (.raised (.unsupportedOpcode 0x01) (cpu [0x01, 0x00] 1 0 0 false false)) := ⟨rfl, rfl⟩

theorem device_inv_of {d : Device} (h : Memory.wf d.store ∧ ∀ c ∈ d.store, c.1 < d.capacity) : d.Inv := ⟨h.1, h.2⟩

/-- The invariant of the machine holds of a state with devices, bindings and a stream. -/
theorem board_inv : board.Inv where
  unloaded_iff := by decide
  length_le := by decide
  ranges := by decide
  apart := by decide
  stores := by
    intro d hd
    have h : d = spare ∨ d = ram8 ∨ d = rom4 := by simpa [State.devices, board] using hd
    rcases h with rfl | rfl | rfl <;> exact device_inv_of (by decide)
  names := by decide

theorem bench_inv : bench.Inv where
  unloaded_iff := by decide
  length_le := by decide
  ranges := by decide
  apart := by decide
  stores := by
    intro d hd
    have h : d = ram8 ∨ d = rom4 := by simpa [State.devices, bench, State.reset] using hd
    rcases h with rfl | rfl <;> exact device_inv_of (by decide)
  names := by decide

theorem built_inv : built.Inv where
  unloaded_iff := by decide
  length_le := by decide
  ranges := by decide
  apart := by decide
  stores := by
    intro d hd
    have h : d = newDevice 0 .ram Config.ramCapacity 0 ∨ d = newDevice 1 .rom Config.romCapacity 1 := by
      simpa [State.devices, built, cpu, State.reset] using hd
    rcases h with rfl | rfl <;> exact ⟨memory_wf_nil, fun _ h => by cases h⟩
  names := by decide

theorem built_capacities : built.CapacitiesFixed := by
  intro d hd
  have h : d = newDevice 0 .ram Config.ramCapacity 0 ∨ d = newDevice 1 .rom Config.romCapacity 1 := by
    simpa [State.devices, built, cpu, State.reset] using hd
  rcases h with rfl | rfl <;> rfl

theorem witness_StepKeepsTheInvariant :
    board.Inv ∧ stateAfter (step board) = some { board with pc := 2, a := 0xC0, n := true } ∧
      built.Inv ∧ built.CapacitiesFixed ∧ stateAfter (step built) = some { built with pc := 1, x := 0x80, n := true } :=
  ⟨board_inv, rfl, built_inv, built_capacities, rfl⟩

theorem witness_HostOperationsKeepTheInvariant :
    board.Inv ∧ (hostStep (.attach ⟨0x0010, 0x0020⟩ 2) board).after =
        some { board with bindings := board.bindings ++ [⟨⟨0x0010, 0x0020⟩, spare⟩], pool := [] } ∧
      built.Inv ∧ built.CapacitiesFixed ∧ (hostStep (.createDevice .rom) built).after =
        some { built with pool := built.pool ++ [newDevice 2 .rom Config.romCapacity 2], fresh := 3 } :=
  ⟨board_inv, rfl, built_inv, built_capacities, rfl⟩

theorem witness_StepsLeaveStreamAndBusAlone :
    stateAfter (step board) = some { board with pc := 2, a := 0xC0, n := true } := rfl

theorem witness_OnlyResetUnloads :
    (hostStep .resetInterpreter board).after = some { board with istate := .unloaded, stream := none } ∧
      board.istate ≠ .unloaded := ⟨rfl, by decide⟩

theorem witness_RunResultIsStable : EndsWithin 1 (cpu [0x00] 0 0 0 false false) := .inl ⟨_, rfl⟩

theorem witness_HaltedRunReturnsAtOnce : (haltRun board).istate = .halted := rfl

/-- At the boundary `L = 65535`. -/
theorem witness_ShortStreamRunsEnd :
    (cpu (List.replicate 65535 0xAA) 0 0 0 false false).istate = .running ∧
      streamLength (cpu (List.replicate 65535 0xAA) 0 0 0 false false) ≤ 65535 :=
  ⟨rfl, le_of_eq List.length_replicate⟩

theorem witness_FullStreamRunMayNeverEnd :
    (cpu (List.replicate 65536 opTax) 0 0 0 false false).istate = .running ∧
      (cpu (List.replicate 65536 opTax) 0 0 0 false false).stream = some (List.replicate 65536 opTax) := ⟨rfl, rfl⟩

theorem witness_WholeInstructionsRunSafely :
    let s := cpu [0xFF, 0xA9, 0x00, 0xAA] 1 0 0 false false
    s.istate = .running ∧ s.stream = some ([0xFF] ++ assemble [.lda 0x00, .tax]) ∧
      ([0xFF] ++ assemble [.lda 0x00, .tax]).length ≤ 65535 ∧ s.pc.toNat = [(0xFF : Byte)].length := by decide

theorem witness_HostSetAndGet : Reg.x ≠ Reg.a := by decide

/-- The two clauses at the boundary: 65536 bytes and 65537. -/
theorem witness_LoadKeepsTheCpu :
    (List.replicate 65536 (0xAA : Byte)).length ≤ 65536 ∧ 65536 < (List.replicate 65537 (0xAA : Byte)).length :=
  ⟨le_of_eq List.length_replicate, by rw [List.length_replicate]; decide⟩

/-- A device of the host's and one of the bus's, and a name of no device. -/
theorem witness_ComponentResetsAreSeparate :
    board.Inv ∧ spare ∈ board.devices ∧ rom4 ∈ board.devices ∧ ∀ d ∈ board.devices, d.id ≠ 3 :=
  ⟨board_inv, by decide, by decide, by decide⟩

/-- `DeviceReadIsBounded`: the last offset and the first that does not exist, of a device in the host's hands. -/
theorem witness_DeviceReadIsBounded :
    7 < ram8.capacity ∧ Memory.read ram8.store 7 = some 0x17 ∧ ram8.capacity ≤ 8 ∧ bench.Inv ∧ ram8 ∈ bench.pool :=
  ⟨by decide, by decide, by decide, bench_inv, by decide⟩

theorem witness_RamWriteThenRead :
    ram8.kind = .ram ∧ Memory.wf ram8.store ∧ 7 < ram8.capacity ∧ ram8.capacity ≤ 8 ∧ bench.Inv ∧ ram8 ∈ bench.pool :=
  ⟨rfl, by decide, by decide, by decide, bench_inv, by decide⟩

theorem witness_RomIsNeverWritten :
    rom4.kind = .rom ∧ 3 < rom4.capacity ∧ rom4.capacity ≤ 4 ∧ bench.Inv ∧ rom4 ∈ bench.pool :=
  ⟨rfl, by decide, by decide, bench_inv, by decide⟩

theorem witness_DeviceLoadRoundTrip :
    Memory.wf ram8.store ∧ 5 + [(0x01 : Byte), 0x02, 0x03].length ≤ ram8.capacity ∧
      ram8.capacity < 6 + [(0x01 : Byte), 0x02, 0x03].length ∧ bench.Inv ∧ ram8 ∈ bench.pool :=
  ⟨by decide, by decide, by decide, bench_inv, by decide⟩

/-- A device of the host's and one of the bus's, and a name of no device. -/
theorem witness_DumpIsTheWholeContents :
    board.Inv ∧ spare ∈ board.devices ∧ ram8 ∈ board.devices ∧ ∀ d ∈ board.devices, d.id ≠ 3 :=
  ⟨board_inv, by decide, by decide, by decide⟩

/-- Two ranges that overlap, and two that only touch. -/
theorem witness_OverlapMeansASharedAddress :
    rangeWf ⟨0x7000, 0x8001⟩ = true ∧ rangeWf ⟨0x8000, 0x10000⟩ = true ∧
      AddrRange.overlaps ⟨0x7000, 0x8001⟩ ⟨0x8000, 0x10000⟩ = true ∧
      AddrRange.overlaps ⟨0x7000, 0x8000⟩ ⟨0x8000, 0x10000⟩ = false := by decide

theorem witness_RoutingIsDeterministic :
    board.bindings.Pairwise (fun b c => b.range.overlaps c.range = false) ∧ board.bindings.Perm board.bindings.reverse :=
  ⟨board_inv.apart, (List.reverse_perm _).symm⟩

/-- A mapped address, at the last one of its range, and an unmapped one, the first after it. -/
theorem witness_BusReadTranslatesAndDelegates :
    board.Inv ∧ (∃ b ∈ board.bindings, b.range.contains 0x000F = true) ∧
      ∀ b ∈ board.bindings, b.range.contains 0x0010 = false := ⟨board_inv, by decide, by decide⟩

theorem witness_BusWriteThenRead :
    board.Inv ∧ (⟨⟨0x0000, 0x0010⟩, ram8⟩ : Binding) ∈ board.bindings ∧ AddrRange.contains ⟨0x0000, 0x0010⟩ 0x0007 = true ∧
      ram8.kind = .ram ∧ (0x0007 : Word16).toNat - 0x0000 < ram8.capacity :=
  ⟨board_inv, by decide, by decide, rfl, by decide⟩

theorem witness_BusWritesThatChangeNothing :
    (∀ b ∈ board.bindings, b.range.contains 0x0900 = false) ∧
      route board.bindings 0x8003 = some ⟨⟨0x8000, 0x8004⟩, rom4⟩ ∧ rom4.kind = .rom ∧
      (0x8003 : Word16).toNat - 0x8000 < rom4.capacity := ⟨by decide, rfl, rfl, by decide⟩

theorem witness_RangeLongerThanItsDevice :
    route board.bindings 0x0008 = some ⟨⟨0x0000, 0x0010⟩, ram8⟩ ∧
      ram8.capacity ≤ (0x0008 : Word16).toNat - 0x0000 := ⟨rfl, by decide⟩

/-- An ill-formed range, an overlapping one, one that only touches; and names not held: an attached device's and none's. -/
theorem witness_AttachAddsOrRejects :
    board.Inv ∧ spare ∈ board.pool ∧ rangeWf ⟨0x0010, 0x0010⟩ = false ∧
      (rangeWf ⟨0x000F, 0x0020⟩ = true ∧ ∃ b ∈ board.bindings, AddrRange.overlaps ⟨0x000F, 0x0020⟩ b.range = true) ∧
      (rangeWf ⟨0x0010, 0x0020⟩ = true ∧ ∀ b ∈ board.bindings, AddrRange.overlaps ⟨0x0010, 0x0020⟩ b.range = false) ∧
      (∀ d ∈ board.pool, d.id ≠ 0) ∧ ∀ d ∈ board.pool, d.id ≠ 3 :=
  ⟨board_inv, by decide, by decide, by decide, by decide, by decide, by decide⟩

theorem witness_OrderlyHandlersFailCleanly :
    ldaHandler.orderly ∧ runHandler ldaHandler (cpu [0xA9] 1 0 0 false false) =
      .fault (.expectedParameter 1) (cpu [0xA9] 1 0 0 false false) :=
  ⟨fun _ _ => trivial, rfl⟩

/-- A row for a byte not yet in the table, at which the extended machine stands, and one at which it does not. -/
theorem witness_AddedRowsKeepTheOthers :
    baseTable.wf = true ∧ baseTable.extend 0xEA .done = some (baseTable ++ [(0xEA, .done)]) ∧
      streamRead (cpu [0xEA] 0 0 0 false false) 0 = some 0xEA ∧ streamRead board 0 ≠ some 0xEA :=
  ⟨by decide, rfl, rfl, by decide⟩

/-- Both operand bytes present, one absent, both absent. -/
theorem witness_WordOperandIsLittleEndian :
    streamRead (cpu [0x34, 0x12] 0 0 0 false false) 0 = some 0x34 ∧
      streamRead (cpu [0x34, 0x12] 0 0 0 false false) (0 + 1) = some 0x12 ∧
      streamRead (cpu [0x34] 0 0 0 false false) 0 = some 0x34 ∧
      streamRead (cpu [0x34] 0 0 0 false false) (0 + 1) = none ∧
      streamRead (cpu [] 0 0 0 false false) 0 = none := ⟨rfl, rfl, rfl, rfl, rfl⟩

/-- A cycle over the table that goes on, one that halts and one that raises; and bus accesses that answer and that fail. -/
theorem witness_ExtendedRunsReturnHandlerErrors :
    board.istate = .running ∧
      cycleWith addedTable board = .next { board with pc := 2, a := 0xC0, n := true } ∧
      cycleWith addedTable (boardWith []) = .halt (haltRun (boardWith [])) ∧
      cycleWith addedTable (boardWith [0x01, 0x00, 0x09]) =
        .fault (.unmappedAddress 0x0900) { boardWith [0x01, 0x00, 0x09] with pc := 3 } ∧
      memRead 0x8000 board = .ok 0xE0 ∧ memRead 0x0900 board = .error (.unmappedAddress 0x0900) ∧
      memWrite 0x8000 0x55 board = .ok board ∧ memWrite 0x0008 0x55 board = .error (.outOfRangeAccess 8) :=
  ⟨rfl, rfl, rfl, rfl, by decide, by decide, rfl, rfl⟩

theorem witness_ExtendedMachineKeepsTheInvariant :
    board.Inv ∧ stateAfter (stepWith addedTable board) = some { board with pc := 2, a := 0xC0, n := true } ∧
      built.Inv ∧ built.CapacitiesFixed ∧
      (hostStepWith addedTable (.interpret 1) built).after = some { built with pc := 1, x := 0x80, n := true } :=
  ⟨board_inv, rfl, built_inv, built_capacities, rfl⟩

/-- Each operation that can return an error returns one. -/
theorem witness_EachOperationReturnsItsOwnKinds :
    hostStepWith addedTable (.interpret 5) (boardWith [0x01, 0x00, 0x09]) =
        .error (.unmappedAddress 0x0900) { boardWith [0x01, 0x00, 0x09] with pc := 3 } ∧
      hostStepWith baseTable (.interpret 5) State.reset = .error .noSourceLoaded State.reset ∧
      hostStepWith baseTable (.attach ⟨0x000F, 0x0020⟩ 2) board = .error (.overlappingAttachment ⟨0x000F, 0x0020⟩) board ∧
      hostStepWith baseTable (.busRead 0x0900) board = .error (.unmappedAddress 0x0900) board ∧
      hostStepWith baseTable (.busWrite 0x0008 0x55) board = .error (.outOfRangeAccess 8) board ∧
      hostStepWith baseTable (.deviceRead 0 8) bench = .error (.outOfRangeAccess 8) bench ∧
      hostStepWith baseTable (.deviceWrite 1 4 0x55) bench = .error (.outOfRangeAccess 4) bench ∧
      hostStepWith baseTable (.deviceLoad 0 9 []) bench = .error (.outOfRangeAccess 9) bench :=
  ⟨rfl, rfl, rfl, rfl, rfl, rfl, rfl, rfl⟩

end Sys2Proof.Tests
end

section
/-! What an instruction and a step can do, and what they leave alone. -/

namespace Sys2Proof.Proofs

open Sys2Proof.Machine Sys2Proof.Laws

/-! ## The meanings of the three instructions -/

/-- Everything an instruction can do: each has one next state. -/
theorem exec_next_cases {i : Instr} {s t : State} (h : exec i s = .next t) :
    (i = .hlt ∧ t = haltRun s) ∨ (∃ v, i = .lda v ∧ t = writeRegFlags .a v (incPc (incPc s))) ∨
    (i = .tax ∧ t = writeRegFlags .x s.a (incPc s)) := by
  cases i with
  | hlt => cases h; exact .inl ⟨rfl, rfl⟩
  | lda v => cases h; exact .inr (.inl ⟨v, rfl, rfl⟩)
  | tax => cases h; exact .inr (.inr ⟨rfl, rfl⟩)

/-! ## Everything outside the Cpu and the status stays -/

theorem sameOutside_refl (s : State) : s.SameOutside s := ⟨rfl, rfl, rfl, rfl⟩

theorem sameOutside_trans {s t u : State} (h : s.SameOutside t) (k : t.SameOutside u) : s.SameOutside u := by
  obtain ⟨hs, hb, hp, hf⟩ := h
  obtain ⟨ks, kb, kp, kf⟩ := k
  exact ⟨ks.trans hs, kb.trans hb, kp.trans hp, kf.trans hf⟩

theorem sameOutside_haltRun (s : State) : s.SameOutside (haltRun s) := ⟨rfl, rfl, rfl, rfl⟩

theorem sameOutside_incPc (s : State) : s.SameOutside (incPc s) := ⟨rfl, rfl, rfl, rfl⟩

theorem sameOutside_setReg (r : Reg) (v : Byte) (s : State) : s.SameOutside (setReg r v s) := by
  obtain ⟨-, -, -, -, hs, hb, hp, hf⟩ := setReg_frame r v s
  exact ⟨hs, hb, hp, hf⟩

theorem sameOutside_updateZeroFlag (v : Byte) (s : State) : s.SameOutside (updateZeroFlag v s) := ⟨rfl, rfl, rfl, rfl⟩

theorem sameOutside_updateNegativeFlag (v : Byte) (s : State) : s.SameOutside (updateNegativeFlag v s) :=
  ⟨rfl, rfl, rfl, rfl⟩

theorem sameOutside_writeRegFlags (r : Reg) (v : Byte) (s : State) : s.SameOutside (writeRegFlags r v s) :=
  sameOutside_trans (sameOutside_setReg r v s)
    (sameOutside_trans (sameOutside_updateZeroFlag _ _) (sameOutside_updateNegativeFlag _ _))

theorem setReg_istate (r : Reg) (v : Byte) (s : State) : (setReg r v s).istate = s.istate := by
  cases r <;> rfl

theorem writeRegFlags_istate (r : Reg) (v : Byte) (s : State) : (writeRegFlags r v s).istate = s.istate := by
  cases r <;> rfl

/-- The length of the stream depends on the stream alone. -/
theorem streamLength_congr {s t : State} (h : t.stream = s.stream) : streamLength t = streamLength s := by
  simp only [streamLength, streamBytes, h]

/-- A bus read depends on the bindings alone. -/
theorem memRead_sameOutside {s t : State} (h : s.SameOutside t) (addr : Word16) : memRead addr t = memRead addr s := by
  obtain ⟨-, hb, -, -⟩ := h
  simp only [memRead, hb]

theorem devices_sameOutside {s t : State} (h : s.SameOutside t) : t.devices = s.devices := by
  obtain ⟨-, hb, hp, -⟩ := h
  simp only [State.devices, hb, hp]

/-- Finding a device by its name depends on the devices alone. -/
theorem anyDevice_sameOutside {s t : State} (h : s.SameOutside t) (id : Nat) : anyDevice id t = anyDevice id s := by
  obtain ⟨-, hb, hp, -⟩ := h
  simp only [anyDevice, hb, hp]

/-- No instruction touches the stream, the bus or a device (R34, R38). -/
theorem exec_sameOutside {i : Instr} {s t : State} (h : exec i s = .next t) : s.SameOutside t := by
  obtain ⟨-, rfl⟩ | ⟨v, -, rfl⟩ | ⟨-, rfl⟩ := exec_next_cases h
  · exact sameOutside_haltRun s
  · exact sameOutside_trans (sameOutside_trans (sameOutside_incPc s) (sameOutside_incPc _))
      (sameOutside_writeRegFlags .a v _)
  · exact sameOutside_trans (sameOutside_incPc s) (sameOutside_writeRegFlags .x s.a _)

/-- What a halt, the advance of `pc` and a register write with its flags keep, every step keeps, one that ends in an
error too. -/
theorem step_keeps (P : State → Prop) (halt : ∀ s, s.istate = .running → P s → P (haltRun s))
    (advance : ∀ s, P s → P (incPc s)) (write : ∀ r v s, P s → P (writeRegFlags r v s))
    {s t : State} (p : P s) (h : stateAfter (step s) = some t) : P t := by
  cases hi : s.istate with
  | unloaded => rw [step_unloaded hi] at h; cases h; exact p
  | halted => rw [step_halted hi] at h; cases h; exact p
  | running =>
    obtain ⟨-, e⟩ | ⟨-, e⟩ | ⟨v, -, -, e⟩ | ⟨-, -, e⟩ | ⟨-, e⟩ | ⟨b, -, -, -, -, e⟩ := step_running_cases hi <;>
      rw [e] at h <;> cases h
    · exact halt s hi p
    · exact halt s hi p
    · exact write .a v _ (advance _ (advance s p))
    · exact advance s p
    · exact write .x s.a _ (advance s p)
    · exact advance s p

theorem step_sameOutside {s t : State} (h : stateAfter (step s) = some t) : s.SameOutside t :=
  step_keeps s.SameOutside (fun u _ p => sameOutside_trans p (sameOutside_haltRun u))
    (fun u p => sameOutside_trans p (sameOutside_incPc u))
    (fun r v u p => sameOutside_trans p (sameOutside_writeRegFlags r v u)) (sameOutside_refl s) h

end Sys2Proof.Proofs
end

section
/-! The invariant of the machine and the capacities of its devices: every step and every host operation keeps them. -/

namespace Sys2Proof.Proofs

open Sys2Proof.Machine Sys2Proof.Laws

/-! ## Changes of the Cpu and the engine -/

/-- From `s` to `t` the invariant of the machine is kept, and so are the capacities of its devices. -/
def KeepsInvariants (s t : State) : Prop := (s.Inv → t.Inv) ∧ (s.CapacitiesFixed → t.CapacitiesFixed)

theorem keepsInvariants_refl (s : State) : KeepsInvariants s s := ⟨id, id⟩

theorem keepsInvariants_trans {s t u : State} (h : KeepsInvariants s t) (k : KeepsInvariants t u) :
    KeepsInvariants s u := ⟨k.1 ∘ h.1, k.2 ∘ h.2⟩

/-- A change of the Cpu and of the status alone keeps the invariants, where it leads neither to `Unloaded` nor
from it. -/
theorem keepsInvariants_of_sameOutside {s t : State} (o : s.SameOutside t)
    (i : t.istate = .unloaded ↔ s.istate = .unloaded) : KeepsInvariants s t := by
  have hd := devices_sameOutside o
  obtain ⟨hs, hb, -, hf⟩ := o
  refine ⟨fun h => ⟨?_, ?_, ?_, ?_, ?_, ?_⟩, fun h => ?_⟩
  · rw [i, hs]; exact h.unloaded_iff
  · rw [streamLength_congr hs]; exact h.length_le
  · rw [hb]; exact h.ranges
  · rw [hb]; exact h.apart
  · rw [hd]; exact h.stores
  · rw [hd, hf]; exact h.names
  · unfold State.CapacitiesFixed; rw [hd]; exact h

/-- A change of the Cpu alone keeps the invariants. -/
theorem keepsInvariants_of_cpu {s t : State} (o : s.SameOutside t) (i : t.istate = s.istate) : KeepsInvariants s t :=
  keepsInvariants_of_sameOutside o (by rw [i])

theorem keepsInvariants_haltRun {s : State} (h : s.istate = .running) : KeepsInvariants s (haltRun s) :=
  keepsInvariants_of_sameOutside (sameOutside_haltRun s) (by simp [h])

theorem keepsInvariants_incPc (s : State) : KeepsInvariants s (incPc s) :=
  keepsInvariants_of_cpu (sameOutside_incPc s) rfl

theorem keepsInvariants_setReg (r : Reg) (v : Byte) (s : State) : KeepsInvariants s (setReg r v s) :=
  keepsInvariants_of_cpu (sameOutside_setReg r v s) (setReg_istate r v s)

theorem keepsInvariants_updateZeroFlag (v : Byte) (s : State) : KeepsInvariants s (updateZeroFlag v s) :=
  keepsInvariants_of_cpu (sameOutside_updateZeroFlag v s) rfl

theorem keepsInvariants_updateNegativeFlag (v : Byte) (s : State) : KeepsInvariants s (updateNegativeFlag v s) :=
  keepsInvariants_of_cpu (sameOutside_updateNegativeFlag v s) rfl

theorem keepsInvariants_writeRegFlags (r : Reg) (v : Byte) (s : State) : KeepsInvariants s (writeRegFlags r v s) :=
  keepsInvariants_of_cpu (sameOutside_writeRegFlags r v s) (writeRegFlags_istate r v s)

theorem keepsInvariants_resetCpu (s : State) : KeepsInvariants s (resetCpu s) :=
  keepsInvariants_of_cpu ⟨rfl, rfl, rfl, rfl⟩ rfl

theorem keepsInvariants_resetInterpreter (s : State) : KeepsInvariants s (resetInterpreter s) :=
  ⟨fun h => ⟨iff_of_true rfl rfl, Nat.zero_le _, h.ranges, h.apart, h.stores, h.names⟩, id⟩

/-- The load of an admitted source keeps the invariants: the stream is within `L_MAX` (R51, R111). -/
theorem keepsInvariants_loadSource {source : List Byte} (hw : sourceWf source = true) (s : State) :
    KeepsInvariants s (loadSource source s) :=
  ⟨fun h => ⟨by simp, of_decide_eq_true hw, h.ranges, h.apart, h.stores, h.names⟩, id⟩

/-- Every step keeps the invariants, one that ends in an error too. -/
theorem step_keepsInvariants {s t : State} (h : stateAfter (step s) = some t) : KeepsInvariants s t :=
  step_keeps (KeepsInvariants s) (fun _ hr p => keepsInvariants_trans p (keepsInvariants_haltRun hr))
    (fun u p => keepsInvariants_trans p (keepsInvariants_incPc u))
    (fun r v u p => keepsInvariants_trans p (keepsInvariants_writeRegFlags r v u)) (keepsInvariants_refl s) h

/-! ## Writes to devices keep the invariants -/

/-- `d` may take the place of `c` in a machine whose counter is `fresh`: its name, kind and capacity are those of `c`,
its draw has been given where that of `c` had, and its storage is as it should be where that of `c` was. -/
structure DeviceUpdate (fresh : Nat) (c d : Device) : Prop where
  id : d.id = c.id
  kind : d.kind = c.kind
  capacity : d.capacity = c.capacity
  draw : c.draw < fresh → d.draw < fresh
  inv : c.Inv → d.Inv

theorem deviceUpdate_refl (fresh : Nat) (d : Device) : DeviceUpdate fresh d d :=
  ⟨rfl, rfl, rfl, fun h => h, fun h => h⟩

theorem device_inv_write {d : Device} (h : d.Inv) {i : Nat} (hi : i < d.capacity) (b : Byte) :
    Device.Inv { d with store := Memory.write d.store i b } where
  canonical := memory_wf_write _ _ _ h.canonical
  inside c hc := by
    rcases memory_mem_write hc with rfl | hc
    · exact hi
    · exact h.inside c hc

theorem device_inv_writeAll {d : Device} (h : d.Inv) {i : Nat} {bs : List Byte} (hi : i + bs.length ≤ d.capacity) :
    Device.Inv { d with store := Memory.writeAll d.store i bs } where
  canonical := memory_wf_writeAll _ _ _ h.canonical
  inside c hc := by
    rcases memory_mem_writeAll bs _ _ hc with hc | ⟨-, hlt⟩
    · exact h.inside c hc
    · exact hlt.trans_le hi

theorem device_inv_newDevice (id : Nat) (kind : DeviceKind) (capacity draw : Nat) :
    (newDevice id kind capacity draw).Inv where
  canonical := memory_wf_nil
  inside c hc := by cases hc

/-- A byte written by a device's own operation (R62, R63) is an update of it. -/
theorem deviceUpdate_writeByte {d d' : Device} {i : Nat} {b : Byte} (fresh : Nat) (h : d.writeByte i b = .ok d') :
    DeviceUpdate fresh d d' := by
  obtain ⟨hi, -, e⟩ | ⟨-, -, e⟩ | ⟨-, e⟩ := device_writeByte_cases d i b <;> rw [e] at h <;> cases h
  · exact ⟨rfl, rfl, rfl, id, fun hd => device_inv_write hd hi b⟩
  · exact deviceUpdate_refl fresh d

/-- A device's `load` (R64) is an update of it. -/
theorem deviceUpdate_load {d d' : Device} {i : Nat} {bs : List Byte} (fresh : Nat) (h : d.load i bs = .ok d') :
    DeviceUpdate fresh d d' := by
  obtain ⟨hi, e⟩ | ⟨-, e⟩ := device_load_cases d i bs <;> rw [e] at h <;> cases h
  exact ⟨rfl, rfl, rfl, id, fun hd => device_inv_writeAll hd hi⟩

/-- The re-creation of a device with the counter's draw (R190) is an update of it, the counter advanced. -/
theorem deviceUpdate_recreate (d : Device) (fresh : Nat) : DeviceUpdate (fresh + 1) d (d.recreate fresh) :=
  ⟨rfl, rfl, rfl, fun _ => Nat.lt_succ_self fresh, fun _ => device_inv_newDevice _ _ _ _⟩

/-- Where the engine, the ranges and the devices' names stay, and every device is an update of an old one, the invariants
are kept. -/
theorem keepsInvariants_of_deviceUpdates {s t : State} (istate : t.istate = s.istate) (stream : t.stream = s.stream)
    (fresh : s.fresh ≤ t.fresh) (ranges : t.bindings.map Binding.range = s.bindings.map Binding.range)
    (ids : t.devices.map Device.id = s.devices.map Device.id)
    (updates : ∀ d ∈ t.devices, ∃ c ∈ s.devices, DeviceUpdate t.fresh c d) : KeepsInvariants s t := by
  refine ⟨fun h => ⟨?_, ?_, ?_, ?_, ?_, ids ▸ h.names.1, ?_⟩, ?_⟩
  · rw [istate, stream]; exact h.unloaded_iff
  · rw [streamLength_congr stream]; exact h.length_le
  · have old : ∀ r ∈ s.bindings.map Binding.range, rangeWf r = true := List.forall_mem_map.mpr h.ranges
    exact List.forall_mem_map.mp (ranges ▸ old)
  · have old : (s.bindings.map Binding.range).Pairwise fun r q => r.overlaps q = false := List.pairwise_map.mpr h.apart
    exact List.pairwise_map.mp (ranges ▸ old)
  · intro d hd
    obtain ⟨c, hc, u⟩ := updates d hd
    exact u.inv (h.stores c hc)
  · intro d hd
    obtain ⟨c, hc, u⟩ := updates d hd
    obtain ⟨hid, hdraw⟩ := h.names.2 c hc
    exact ⟨u.id ▸ hid.trans_le fresh, u.draw (hdraw.trans_le fresh)⟩
  · intro h d hd
    obtain ⟨c, hc, u⟩ := updates d hd
    rw [u.capacity, u.kind]; exact h c hc

/-- A routed write that keeps the routed device's name keeps all the bound devices' names. -/
theorem replaceRouted_ids {bs : List Binding} {addr : Word16} {b : Binding} {d : Device}
    (h : route bs addr = some b) (hid : d.id = b.dev.id) :
    (replaceRouted bs addr d).map (Device.id ∘ Binding.dev) = bs.map (Device.id ∘ Binding.dev) := by
  induction bs with
  | nil => rfl
  | cons c bs ih =>
    by_cases hc : c.range.contains addr = true
    · obtain rfl : c = b := by simpa [route, hc] using h
      simp [replaceRouted, hc, hid]
    · have hr : route bs addr = some b := by simpa [route, List.find?_cons, hc] using h
      simp [replaceRouted, hc, ih hr]

/-- A bus write (R60) keeps the invariants. -/
theorem keepsInvariants_memWrite {addr : Word16} {v : Byte} {s t : State} (h : memWrite addr v s = .ok t) :
    KeepsInvariants s t := by
  obtain ⟨-, e⟩ | ⟨_, _, -, -, e⟩ | ⟨b, d, hr, hw, e⟩ := memWrite_cases addr v s <;> rw [e] at h <;> cases h
  have hu : DeviceUpdate s.fresh b.dev d := deviceUpdate_writeByte _ hw
  refine keepsInvariants_of_deviceUpdates rfl rfl le_rfl (replaceRouted_ranges _ _ _) ?_ ?_
  · simpa [State.devices] using replaceRouted_ids hr hu.id
  · intro c hc
    rcases List.mem_append.mp hc with hc | hc
    · exact ⟨c, pool_mem_devices hc, deviceUpdate_refl _ c⟩
    · obtain ⟨e, he, rfl⟩ := List.mem_map.mp hc
      obtain he | ⟨b', hr', rfl⟩ := mem_replaceRouted he
      · exact ⟨e.dev, binding_mem_devices he, deviceUpdate_refl _ _⟩
      · obtain rfl : b = b' := Option.some.inj (hr.symm.trans hr')
        exact ⟨b.dev, binding_mem_devices (route_some hr).1, hu⟩

/-- What `poolDevice` finds is a device of the host with that name. -/
theorem poolDevice_some {id : Nat} {s : State} {d : Device} (h : poolDevice id s = some d) : d ∈ s.pool ∧ d.id = id :=
  ⟨List.mem_of_find?_eq_some h, by simpa using List.find?_some h⟩

/-- Replacing a device the host holds by an update of it keeps the invariants. -/
theorem keepsInvariants_setPoolDevice {id : Nat} {s : State} {d d' : Device} (h : poolDevice id s = some d)
    (hu : DeviceUpdate s.fresh d d') : KeepsInvariants s (setPoolDevice id d' s) := by
  obtain ⟨hd, hid⟩ := poolDevice_some h
  refine keepsInvariants_of_deviceUpdates rfl rfl le_rfl rfl ?_ ?_
  · have same : ∀ c : Device, (if c.id = id then d' else c).id = c.id := by
      intro c
      split
      · rename_i hc
        rw [hu.id, hid, hc]
      · rfl
    simp [State.devices, setPoolDevice, same]
  · intro e he
    rcases List.mem_append.mp he with he | he
    · obtain ⟨c, hc, rfl⟩ := List.mem_map.mp he
      split
      · exact ⟨d, pool_mem_devices hd, hu⟩
      · exact ⟨c, pool_mem_devices hc, deviceUpdate_refl _ c⟩
    · exact ⟨e, List.mem_append_right _ he, deviceUpdate_refl _ e⟩

/-- What the reset under a name makes of each device. -/
def resetNamed (id fresh : Nat) (c : Device) : Device := if c.id = id then c.recreate fresh else c

theorem resetDevice_eq (id : Nat) (s : State) :
    resetDevice id s = { s with
      pool := s.pool.map (resetNamed id s.fresh)
      bindings := s.bindings.map fun b => { b with dev := resetNamed id s.fresh b.dev }
      fresh := s.fresh + 1 } := rfl

theorem deviceUpdate_resetNamed (id fresh : Nat) (c : Device) : DeviceUpdate (fresh + 1) c (resetNamed id fresh c) := by
  unfold resetNamed
  split
  · exact deviceUpdate_recreate c fresh
  · exact deviceUpdate_refl _ c

theorem resetDevice_devices (id : Nat) (s : State) :
    (resetDevice id s).devices = s.devices.map (resetNamed id s.fresh) := by
  simp [resetDevice_eq, State.devices, Function.comp_def]

/-- The reset of a device (R190), the host's or the bus's, keeps the invariants. -/
theorem keepsInvariants_resetDevice (id : Nat) (s : State) : KeepsInvariants s (resetDevice id s) := by
  have hu := deviceUpdate_resetNamed id s.fresh
  refine keepsInvariants_of_deviceUpdates rfl rfl (Nat.le_succ _) ?_ ?_ ?_
  · simp [resetDevice_eq, Function.comp_def]
  · simp [resetDevice_devices, Function.comp_def, (hu _).id]
  · intro d hd
    rw [resetDevice_devices] at hd
    obtain ⟨c, hc, rfl⟩ := List.mem_map.mp hd
    exact ⟨c, hc, hu c⟩

/-! ## Creation, attachment and the reset of the bus keep the invariants -/

/-- The devices after a creation: the new one, and the old ones. -/
theorem createDevice_devices_perm (kind : DeviceKind) (s : State) :
    (createDevice kind s).devices.Perm (newDevice s.fresh kind kind.capacity s.fresh :: s.devices) := by
  simp only [createDevice, State.devices, List.append_assoc, List.singleton_append]
  exact List.perm_middle

/-- The creation of a device (R192) keeps the invariants: its name is one that has not been given. -/
theorem keepsInvariants_createDevice (kind : DeviceKind) (s : State) : KeepsInvariants s (createDevice kind s) := by
  have hp := createDevice_devices_perm kind s
  have members : ∀ d ∈ (createDevice kind s).devices,
      d = newDevice s.fresh kind kind.capacity s.fresh ∨ d ∈ s.devices :=
    fun d hd => List.mem_cons.mp (hp.mem_iff.mp hd)
  refine ⟨fun h => ⟨h.unloaded_iff, h.length_le, h.ranges, h.apart, ?_, ?_, ?_⟩, ?_⟩
  · intro d hd
    rcases members d hd with rfl | hd
    · exact device_inv_newDevice _ _ _ _
    · exact h.stores d hd
  · refine (hp.map Device.id).nodup_iff.mpr (List.nodup_cons.mpr ⟨fun hm => ?_, h.names.1⟩)
    obtain ⟨d, hd, e⟩ := List.mem_map.mp hm
    exact absurd e (h.names.2 d hd).1.ne
  · intro d hd
    rcases members d hd with rfl | hd
    · exact ⟨Nat.lt_succ_self _, Nat.lt_succ_self _⟩
    · exact (h.names.2 d hd).imp Nat.lt_succ_of_lt Nat.lt_succ_of_lt
  · intro h d hd
    rcases members d hd with rfl | hd
    · rfl
    · exact h d hd

/-- The reset of the Bus keeps the invariants: the devices left are those of the host. -/
theorem keepsInvariants_resetBus (s : State) : KeepsInvariants s (resetBus s) := by
  have sub : (resetBus s).devices.Sublist s.devices := List.Sublist.append_left (List.nil_sublist _) _
  exact ⟨fun h => ⟨h.unloaded_iff, h.length_le, List.forall_mem_nil _, List.Pairwise.nil,
    fun d hd => h.stores d (sub.subset hd), h.names.1.sublist (sub.map _), fun d hd => h.names.2 d (sub.subset hd)⟩,
    fun h d hd => h d (sub.subset hd)⟩

theorem overlaps_comm (r q : AddrRange) : r.overlaps q = q.overlaps r := Bool.and_comm _ _

/-- The state after the attach of the device `d` to a free range. -/
def attached (r : AddrRange) (d : Device) (s : State) : State :=
  { s with bindings := s.bindings ++ [{ range := r, dev := d }], pool := s.pool.filter fun c => c.id != d.id }

/-- An attach moves a device from the host to the bus: the devices stay the same. -/
theorem attached_devices_perm {r : AddrRange} {d : Device} {s : State} (h : s.Inv) (hd : d ∈ s.pool) :
    (attached r d s).devices.Perm s.devices := by
  have others : (s.pool.filter fun c => c.id != d.id) = s.pool.erase d := by
    rw [(pool_names h).of_map.erase_eq_filter]
    exact List.filter_congr fun c hc => by
      rw [Bool.eq_iff_iff, bne_iff_ne, bne_iff_ne, ne_eq, device_id_inj (pool_names h) hc hd]
  simp only [attached, State.devices, others, List.map_append, List.map_cons, List.map_nil, ← List.append_assoc]
  refine (List.perm_append_comm).trans ?_
  rw [List.singleton_append, ← List.cons_append]
  exact (List.perm_cons_erase hd).symm.append_right _

/-- Attaching a device the host holds to a well-formed range that overlaps none (R54, R56) keeps the invariants. -/
theorem keepsInvariants_attached {r : AddrRange} {d : Device} {s : State} (hw : rangeWf r = true) (hd : d ∈ s.pool)
    (free : ∀ b ∈ s.bindings, r.overlaps b.range = false) : KeepsInvariants s (attached r d s) := by
  refine ⟨fun h => ?_, fun h c hc => ?_⟩
  · have hp := attached_devices_perm (r := r) h hd
    refine ⟨h.unloaded_iff, h.length_le, ?_, ?_, fun c hc => h.stores c (hp.mem_iff.mp hc),
      (hp.map _).nodup_iff.mpr h.names.1, fun c hc => h.names.2 c (hp.mem_iff.mp hc)⟩
    · intro b hb
      rcases List.mem_append.mp hb with hb | hb
      · exact h.ranges b hb
      · obtain rfl := List.mem_singleton.mp hb
        exact hw
    · refine List.pairwise_append.mpr ⟨h.apart, List.pairwise_singleton _ _, fun b hb c hc => ?_⟩
      obtain rfl := List.mem_singleton.mp hc
      rw [overlaps_comm]
      exact free b hb
  · rcases List.mem_append.mp hc with hc | hc
    · exact h c (pool_mem_devices (List.mem_filter.mp hc).1)
    · obtain ⟨b, hb, rfl⟩ := List.mem_map.mp hc
      rcases List.mem_append.mp hb with hb | hb
      · exact h _ (binding_mem_devices hb)
      · obtain rfl := List.mem_singleton.mp hb
        exact h d (pool_mem_devices hd)

/-- Everything `attach` can do to the state it leaves (R56): nothing, or the attach of a device the host holds to a
well-formed range that overlaps none. -/
theorem hostAttach_after_cases {r : AddrRange} {id : Nat} {s t : State} (h : (hostAttach r id s).after = some t) :
    t = s ∨ ∃ d ∈ s.pool, rangeWf r = true ∧ (∀ b ∈ s.bindings, r.overlaps b.range = false) ∧ t = attached r d s := by
  unfold hostAttach at h
  split at h
  · rename_i hw
    split at h
    · cases h
    · rename_i d hd
      obtain ⟨hd', rfl⟩ := poolDevice_some hd
      obtain ⟨-, e⟩ | ⟨free, e⟩ := attachBinding_cases r d s.bindings <;> rw [e] at h <;> cases h
      · exact .inl rfl
      · exact .inr ⟨d, hd', hw, free, rfl⟩
  · cases h

theorem keepsInvariants_hostAttach {r : AddrRange} {id : Nat} {s t : State} (h : (hostAttach r id s).after = some t) :
    KeepsInvariants s t := by
  obtain rfl | ⟨d, hd, hw, free, rfl⟩ := hostAttach_after_cases h
  · exact keepsInvariants_refl t
  · exact keepsInvariants_attached hw hd free

/-! ## Every host operation keeps the invariants -/

/-- The answer of a byte leaves the state as it was. -/
theorem answerByte_after (s : State) (r : Except ErrorKind Byte) : (answerByte s r).after = some s := by
  cases r <;> rfl

/-- An operation on a device the host holds, whose success is an update of that device, keeps the invariants. -/
theorem keepsInvariants_answerDevice {id : Nat} {s t : State} {d : Device} {r : Except ErrorKind Device}
    (hd : poolDevice id s = some d) (hu : ∀ d', r = .ok d' → DeviceUpdate s.fresh d d')
    (h : (answerDevice id s r).after = some t) : KeepsInvariants s t := by
  cases r with
  | error e => cases h; exact keepsInvariants_refl s
  | ok d' => cases h; exact keepsInvariants_setPoolDevice hd (hu d' rfl)

/-- Over any run that keeps the invariants, every host operation keeps them. -/
theorem hostStepOf_keepsInvariants {run : Nat → State → RunResult}
    (keep : ∀ fuel s t, (run fuel s).after = some t → KeepsInvariants s t)
    {op : HostOp} {s t : State} (h : (hostStepOf run op s).after = some t) : KeepsInvariants s t := by
  cases op with
  | resetCpu => cases h; exact keepsInvariants_resetCpu s
  | resetInterpreter => cases h; exact keepsInvariants_resetInterpreter s
  | resetBus => cases h; exact keepsInvariants_resetBus s
  | resetDevice id =>
    simp only [hostStepOf] at h
    split at h <;> cases h
    exact keepsInvariants_resetDevice id s
  | createDevice kind => cases h; exact keepsInvariants_createDevice kind s
  | setReg r v => cases h; exact keepsInvariants_setReg r _ s
  | updateZeroFlag v => cases h; exact keepsInvariants_updateZeroFlag v s
  | updateNegativeFlag v => cases h; exact keepsInvariants_updateNegativeFlag v s
  | incrementPc => cases h; exact keepsInvariants_incPc s
  | getReg r => cases h; exact keepsInvariants_refl s
  | getPc => cases h; exact keepsInvariants_refl s
  | getFlag f => cases h; exact keepsInvariants_refl s
  | loadSource source =>
    simp only [hostStepOf] at h
    split at h <;> cases h
    rename_i hw
    exact keepsInvariants_loadSource hw s
  | interpret fuel => rw [hostStepOf_interpret_after] at h; exact keep fuel s t h
  | attach r id => exact keepsInvariants_hostAttach h
  | busRead addr =>
    simp only [hostStepOf, answerByte_after] at h
    cases h; exact keepsInvariants_refl s
  | busWrite addr v =>
    simp only [hostStepOf] at h
    split at h <;> cases h
    · exact keepsInvariants_refl s
    · rename_i hm
      exact keepsInvariants_memWrite hm
  | deviceRead id offset =>
    simp only [hostStepOf] at h
    split at h
    · cases h
    · rw [answerByte_after] at h; cases h; exact keepsInvariants_refl s
  | deviceWrite id offset v =>
    simp only [hostStepOf] at h
    split at h
    · cases h
    · rename_i d hd
      exact keepsInvariants_answerDevice hd (fun _ => deviceUpdate_writeByte _) h
  | deviceLoad id offset data =>
    simp only [hostStepOf] at h
    split at h
    · cases h
    · rename_i d hd
      exact keepsInvariants_answerDevice hd (fun _ => deviceUpdate_load _) h
  | deviceDump id =>
    simp only [hostStepOf] at h
    split at h <;> cases h
    exact keepsInvariants_refl s

/-- `interpret()` over steps that keep the invariants keeps them. -/
theorem interpretOf_keepsInvariants {next : State → Host.Outcome State Fault Refusal}
    (keep : ∀ s t, stateAfter (next s) = some t → KeepsInvariants s t) {fuel : Nat} {s t : State}
    (h : (interpretOf next fuel s).after = some t) : KeepsInvariants s t :=
  interpretOf_keeps (KeepsInvariants s) (fun u v p hv => keepsInvariants_trans p (keep u v hv))
    (keepsInvariants_refl s) h

/-- No handler breaks the invariants (R151). -/
theorem runHandler_keepsInvariants (k : Handler) (s : State) : KeepsInvariants s (runHandler k s).after :=
  runHandler_keeps (KeepsInvariants s) (fun u _ _ p => keepsInvariants_trans p (keepsInvariants_incPc u))
    (fun r v u p => keepsInvariants_trans p (keepsInvariants_setReg r v u))
    (fun v u p => keepsInvariants_trans p (keepsInvariants_updateZeroFlag v u))
    (fun v u p => keepsInvariants_trans p (keepsInvariants_updateNegativeFlag v u))
    (fun _ _ _ _ hw p => keepsInvariants_trans p (keepsInvariants_memWrite hw)) k s (keepsInvariants_refl s)

/-- Every step over any table of handlers keeps the invariants. -/
theorem stepWith_keepsInvariants {table : OpcodeTable} {s t : State} (h : stateAfter (stepWith table s) = some t) :
    KeepsInvariants s t :=
  stepWith_keeps (KeepsInvariants s) table (fun _ hr p => keepsInvariants_trans p (keepsInvariants_haltRun hr))
    (fun u p => keepsInvariants_trans p (keepsInvariants_incPc u))
    (fun k u p => keepsInvariants_trans p (runHandler_keepsInvariants k u)) (keepsInvariants_refl s) h

/-- Settles O25: the invariants are kept by a halt, the advance of `pc` and a register write, which is all a step
does. -/
theorem stepKeepsTheInvariant : Obligations.StepKeepsTheInvariant :=
  fun _ _ h => step_keepsInvariants h

/-- Settles O26, by the cases of the operation; a run keeps what its steps keep. -/
theorem hostOperationsKeepTheInvariant : Obligations.HostOperationsKeepTheInvariant :=
  fun _ _ _ h => hostStepOf_keepsInvariants
    (fun _ _ _ hr => interpretOf_keepsInvariants (fun _ _ hs => step_keepsInvariants hs) hr) h

/-- Settles O59: as O25 and O26, a handler's actions being those of the engine and the bus write. -/
theorem extendedMachineKeepsTheInvariant : Obligations.ExtendedMachineKeepsTheInvariant := by
  rintro table s t (h | ⟨op, h⟩)
  · exact stepWith_keepsInvariants h
  · exact hostStepOf_keepsInvariants
      (fun _ _ _ hr => interpretOf_keepsInvariants (fun _ _ hs => stepWith_keepsInvariants hs) hr) h

/-- Settles O24: there is no stream, no binding and no device at reset. -/
theorem resetMeetsTheInvariants : Obligations.ResetMeetsTheInvariants :=
  ⟨⟨iff_of_true rfl rfl, Nat.zero_le _, List.forall_mem_nil _, List.Pairwise.nil, List.forall_mem_nil _,
    List.nodup_nil, List.forall_mem_nil _⟩, List.forall_mem_nil _, rfl⟩

end Sys2Proof.Proofs
end

section
/-! What the instructions and the steps change: the flags, the program counter, and nothing of the bus. -/

namespace Sys2Proof.Proofs

open Sys2Proof.Machine Sys2Proof.Laws

/-! ## The flags follow the register written -/

/-- Bit 7 of a byte says whether it is at least 0x80 (R30). -/
theorem byte_bit7_eq (v : Byte) : v.getLsbD 7 = decide (0x80 ≤ v.toNat) := BitVec.msb_eq_decide v

/-- No byte is both zero and negative (R32). -/
theorem byte_zero_negative_exclusive (v : Byte) : (v == 0 && v.getLsbD 7) = false := by
  by_cases h : v = 0
  · subst h; decide
  · rw [beq_eq_false_iff_ne.mpr h, Bool.false_and]

theorem updateZeroFlag_eq (v : Byte) (s : State) : updateZeroFlag v s = { s with z := decide (v = 0) } := rfl

theorem updateNegativeFlag_eq (v : Byte) (s : State) :
    updateNegativeFlag v s = { s with n := decide (0x80 ≤ v.toNat) } := by
  rw [updateNegativeFlag, byte_bit7_eq]

theorem writeRegFlags_z (r : Reg) (v : Byte) (s : State) : (writeRegFlags r v s).z = decide (v = 0) := by
  cases r <;> rfl

theorem writeRegFlags_n (r : Reg) (v : Byte) (s : State) : (writeRegFlags r v s).n = decide (0x80 ≤ v.toNat) := by
  rw [← byte_bit7_eq]
  cases r <;> rfl

theorem writeRegFlags_flagsExclusive (r : Reg) (v : Byte) (s : State) : (writeRegFlags r v s).FlagsExclusive := by
  cases r <;> exact byte_zero_negative_exclusive v

/-! ## The program counter -/

theorem incPc_pc_toNat (s : State) : (incPc s).pc.toNat = (s.pc.toNat + 1) % 65536 := BitVec.toNat_add _ _

/-! ## The bus -/

/-- An instruction does the same with another bus and other devices (R38). -/
theorem exec_withOutside (i : Instr) (s u : State) : exec i (s.withOutside u) = outcomeWithOutside (exec i s) u := by
  cases i <;> rfl

theorem fetchWindow_withOutside (s u : State) : fetchWindow (s.withOutside u) = fetchWindow s := rfl

/-! ## The obligations -/

/-- Settles O13, by the cases of the instruction. -/
theorem instructionFrames : Obligations.InstructionFrames := by
  intro i s t h
  have o := exec_sameOutside h
  refine ⟨o, memRead_sameOutside o, fun id offset => by rw [anyDevice_sameOutside o], ?_⟩
  obtain ⟨rfl, rfl⟩ | ⟨v, rfl, rfl⟩ | ⟨rfl, rfl⟩ := exec_next_cases h
  · exact ⟨rfl, rfl, rfl, rfl⟩
  · exact ⟨rfl, rfl⟩
  · exact ⟨rfl, rfl⟩

/-- Settles O14, by the cases of the instruction. -/
theorem programCounterAdvance : Obligations.ProgramCounterAdvance := by
  intro i s t h
  obtain ⟨rfl, rfl⟩ | ⟨v, rfl, rfl⟩ | ⟨rfl, rfl⟩ := exec_next_cases h
  · exact (Nat.mod_eq_of_lt s.pc.isLt).symm
  · rw [writeRegFlags_a_pc, incPc_pc_toNat, incPc_pc_toNat, Nat.mod_add_mod]
    rfl
  · exact incPc_pc_toNat s

/-- Settles O15, by the cases of a step in `Running`. -/
theorem flagsReflectTheWrittenRegister : Obligations.FlagsReflectTheWrittenRegister := by
  refine ⟨fun s t hr h => ?_, fun r v s => ?_⟩
  · have hltNeLda : opHlt ≠ opLdaImm := by decide
    have hltNeTax : opHlt ≠ opTax := by decide
    have taxNeLda : opTax ≠ opLdaImm := by decide
    obtain ⟨hb, e⟩ | ⟨hb, e⟩ | ⟨v, hb, -, e⟩ | ⟨-, -, e⟩ | ⟨hb, e⟩ | ⟨b, -, -, -, -, e⟩ := step_running_cases hr <;>
      rw [e] at h <;> cases h <;> rw [hb]
    · simp
    · simp [hltNeLda, hltNeTax]
    · rw [if_pos rfl]
      exact ⟨writeRegFlags_z .a v _, writeRegFlags_n .a v _⟩
    · rw [if_neg (by simpa using taxNeLda), if_pos rfl]
      exact ⟨writeRegFlags_z .x s.a _, writeRegFlags_n .x s.a _⟩
  · obtain ⟨-, hz, hn, -⟩ := setReg_frame r (BitVec.ofNat 8 v) s
    exact ⟨hz, hn⟩

/-- Settles O16: no byte is both zero and negative, and nothing but a register write with its flags changes a flag. -/
theorem zeroAndNegativeExclude : Obligations.ZeroAndNegativeExclude := by
  refine ⟨fun i s t ne h => ?_, fun s t p h => ?_⟩
  · obtain ⟨rfl, -⟩ | ⟨v, -, rfl⟩ | ⟨-, rfl⟩ := exec_next_cases h
    · exact absurd rfl ne
    · exact writeRegFlags_flagsExclusive .a v _
    · exact writeRegFlags_flagsExclusive .x s.a _
  · exact step_keeps State.FlagsExclusive (fun _ _ q => q) (fun _ q => q)
      (fun r v u _ => writeRegFlags_flagsExclusive r v u) p h

/-- Settles O27: a halt, the advance of `pc` and a register write leave all but the Cpu and the status alone. -/
theorem stepsLeaveStreamAndBusAlone : Obligations.StepsLeaveStreamAndBusAlone := by
  intro s t h
  have o := step_sameOutside h
  exact ⟨o, memRead_sameOutside o⟩

/-- Settles O28: the bytes a step decodes are those of the stream, and no instruction sees the bus. -/
theorem stepsDoNotSeeTheBus : Obligations.StepsDoNotSeeTheBus := by
  intro s u
  unfold step
  rw [fetchWindow_withOutside, show (s.withOutside u).istate = s.istate from rfl]
  cases s.istate with
  | unloaded => rfl
  | halted => rfl
  | running =>
    rcases decode (fetchWindow s) with r | ⟨i, rest⟩
    · cases r <;> rfl
    · exact exec_withOutside i s u

/-- Settles O37: the increment is that of 16-bit words. -/
theorem programCounterOperations : Obligations.ProgramCounterOperations :=
  fun s => ⟨rfl, rfl, incPc_pc_toNat s⟩

/-- Settles O38: `N` is bit 7, which is set in the bytes from 0x80 up. -/
theorem flagUpdateFunctions : Obligations.FlagUpdateFunctions := fun v s =>
  ⟨updateZeroFlag_eq v s, updateNegativeFlag_eq v s, congrArg (HostResult.ok .unit) (updateZeroFlag_eq v s),
    congrArg (HostResult.ok .unit) (updateNegativeFlag_eq v s), rfl, rfl⟩

end Sys2Proof.Proofs
end

section
/-! A placed table word is what the next step fetches (R92). -/

namespace Sys2Proof.Proofs

open Sys2Proof.Machine Sys2Proof.Laws

theorem getElem?_placeByte_self (i : Nat) (b : Byte) (bytes : List Byte) : (placeByte i b bytes)[i]? = some b := by
  unfold placeByte
  split
  · rename_i h
    rw [List.getElem?_set_self h]
  · rename_i h
    have len : (bytes ++ List.replicate (i - bytes.length) 0).length = i := by simp; omega
    rw [List.getElem?_append_right (by rw [len]), len, Nat.sub_self]
    rfl

theorem getElem?_placeByte_of_ne {i j : Nat} {b c : Byte} {bytes : List Byte} (h : bytes[j]? = some c) (ne : j ≠ i) :
    (placeByte i b bytes)[j]? = some c := by
  obtain ⟨lt, -⟩ := List.getElem?_eq_some_iff.mp h
  unfold placeByte
  split
  · rw [List.getElem?_set_ne (Ne.symm ne), h]
  · rw [List.append_assoc, List.getElem?_append_left lt, h]

/-- The window of a state with a placed table word is the two bytes of the word, at the wrap too. -/
theorem fetchWindow_withFetchWord (s : State) (nbits w : Nat) :
    fetchWindow (s.withFetchWord nbits w) = tableBytes nbits w := by
  have ne : s.pc.toNat ≠ (s.pc + 1).toNat := by bv_omega
  exact fetchWindow_pair (getElem?_placeByte_of_ne (getElem?_placeByte_self _ _ _) ne) (getElem?_placeByte_self _ _ _)

/-- Of the number made of two bytes, the low byte. -/
theorem ofNat_twoBytes_low (b v : Byte) : BitVec.ofNat 8 (b.toNat + 256 * v.toNat) = b := by
  apply BitVec.eq_of_toNat_eq
  rw [BitVec.toNat_ofNat, Nat.add_mul_mod_self_left, Nat.mod_eq_of_lt b.isLt]

/-- Of the number made of two bytes, the high byte. -/
theorem ofNat_twoBytes_high (b v : Byte) : BitVec.ofNat 8 ((b.toNat + 256 * v.toNat) / 256) = v := by
  rw [Nat.add_mul_div_left _ _ (by decide), Nat.div_eq_of_lt b.isLt, Nat.zero_add, BitVec.ofNat_toNat,
    BitVec.setWidth_eq]

theorem tableBytes_lda (v : Byte) : tableBytes 16 (tableWord (.lda v)) = [opLdaImm, v] := by
  simp [tableBytes, tableByte, tableWord, encode, ofNat_twoBytes_low, ofNat_twoBytes_high]

/-- The table word of an instruction, laid out as bytes, decodes to it. -/
theorem decode_tableBytes (i : Instr) :
    ∃ rest, decode (tableBytes (8 * (encode i).length) (tableWord i)) = .ok (i, rest) := by
  cases i with
  | hlt => exact ⟨[0], by decide⟩
  | lda v => exact ⟨[], by rw [← decode_lda v [], ← tableBytes_lda v]; rfl⟩
  | tax => exact ⟨[0], by decide⟩

theorem step_of_decode {s : State} {i : Instr} {rest : List Byte} (h : s.istate = .running)
    (hd : decode (fetchWindow s) = .ok (i, rest)) : step s = exec i s := by
  simp [step, h, hd]

/-- Settles O8: the window is the table word's bytes, and they decode to the instruction. -/
theorem placedInstructionRuns : Obligations.PlacedInstructionRuns := by
  intro s i
  obtain ⟨rest, hd⟩ := decode_tableBytes i
  rw [← fetchWindow_withFetchWord s] at hd
  exact step_of_decode rfl hd

end Sys2Proof.Proofs
end

section
/-! How far a run goes: a short stream ends it, a full one may not (R122). -/

namespace Sys2Proof.Proofs

open Sys2Proof.Machine Sys2Proof.Laws

theorem interpret_running {s : State} (h : s.istate = .running) (fuel : Nat) : interpret fuel s = runLoop fuel s := by
  rw [interpret_eq, h]

theorem runLoop_halted {s t : State} (fuel : Nat) (h : step s = .next t) (ht : t.istate = .halted) :
    runLoop (fuel + 1) s = .ok t := by
  simp only [runLoop_succ, h, if_pos ht]

theorem runLoop_running {s t : State} (fuel : Nat) (h : step s = .next t) (ht : t.istate = .running) :
    runLoop (fuel + 1) s = runLoop fuel t := by
  simp [runLoop_succ, h, ht]

theorem runLoop_fault {s t : State} {e : ErrorKind} (fuel : Nat) (h : step s = .fault (.raised e t)) :
    runLoop (fuel + 1) s = .error e t := by
  simp only [runLoop_succ, h]

/-- A byte read from the stream stands below its end (R52). -/
theorem lt_streamLength_of_streamRead {s : State} {i : Word16} {b : Byte} (h : streamRead s i = some b) :
    i.toNat < streamLength s :=
  not_le.mp fun le => by rw [(streamRead_eq_none_iff s i).mpr le] at h; cases h

/-- Below the top of its range an increment of `pc` does not wrap (R27). -/
theorem pc_add_one_toNat {p : Word16} (h : p.toNat < 65535) : (p + 1).toNat = p.toNat + 1 := by
  rw [BitVec.toNat_add]
  exact Nat.mod_eq_of_lt (Nat.succ_lt_succ h)

/-- Over a stream shorter than 65536 bytes a step halts, raises, or moves `pc` up from below the stream's end. -/
theorem step_short_stream {s : State} (hr : s.istate = .running) (short : streamLength s ≤ 65535) :
    (∃ t, step s = .next t ∧ t.istate = .halted) ∨ (∃ e t, step s = .fault (.raised e t)) ∨
    (∃ t, step s = .next t ∧ t.istate = .running ∧ streamLength t = streamLength s ∧
      s.pc.toNat < streamLength s ∧ s.pc.toNat < t.pc.toNat) := by
  obtain ⟨-, e⟩ | ⟨-, e⟩ | ⟨v, hb, hv, e⟩ | ⟨-, -, e⟩ | ⟨hb, e⟩ | ⟨b, -, -, -, -, e⟩ := step_running_cases hr
  · exact .inl ⟨_, e, rfl⟩
  · exact .inl ⟨_, e, rfl⟩
  · have lt := lt_streamLength_of_streamRead hb
    have lt' := lt_streamLength_of_streamRead hv
    have one := pc_add_one_toNat (lt.trans_le short)
    have two := pc_add_one_toNat (lt'.trans_le short)
    refine .inr (.inr ⟨_, e, hr, rfl, lt, ?_⟩)
    rw [writeRegFlags_a_pc, incPc_pc, incPc_pc, two, one]
    omega
  · exact .inr (.inl ⟨_, _, e⟩)
  · have lt := lt_streamLength_of_streamRead hb
    refine .inr (.inr ⟨_, e, hr, rfl, lt, ?_⟩)
    rw [writeRegFlags_x_pc, incPc_pc, pc_add_one_toNat (lt.trans_le short)]
    exact Nat.lt_succ_self _
  · exact .inr (.inl ⟨_, _, e⟩)

/-- A run over a short stream ends within more steps than there are bytes from `pc` to its end. -/
theorem runLoop_ends (fuel : Nat) : ∀ s : State, s.istate = .running → streamLength s ≤ 65535 →
    streamLength s - s.pc.toNat < fuel → (∃ t, runLoop fuel s = .ok t) ∨ ∃ e t, runLoop fuel s = .error e t := by
  induction fuel with
  | zero => exact fun _ _ _ h => absurd h (Nat.not_lt_zero _)
  | succ fuel ih =>
    intro s hr short hf
    obtain ⟨t, e, ht⟩ | ⟨k, t, e⟩ | ⟨t, e, ht, hl, below, up⟩ := step_short_stream hr short
    · exact .inl ⟨t, runLoop_halted fuel e ht⟩
    · exact .inr ⟨k, t, runLoop_fault fuel e⟩
    · rw [runLoop_running fuel e ht]
      exact ih t ht (hl ▸ short) (by omega)

/-- Settles O33, by induction on the number of steps: each takes `pc` nearer to the end of the stream. -/
theorem shortStreamRunsEnd : Obligations.ShortStreamRunsEnd := by
  intro s hr short
  unfold EndsWithin
  rw [interpret_running hr]
  exact runLoop_ends _ s hr short (Nat.lt_succ_self _)

/-- A run that a predicate keeps in `Running`, step by step, has not ended. -/
theorem runLoop_unfinished (P : State → Prop) (keep : ∀ s, P s → ∃ t, step s = .next t ∧ t.istate = .running ∧ P t)
    (fuel : Nat) : ∀ s, P s → ∃ t, runLoop fuel s = .unfinished t := by
  induction fuel with
  | zero => exact fun s _ => ⟨s, runLoop_zero s⟩
  | succ fuel ih =>
    intro s p
    obtain ⟨t, e, ht, q⟩ := keep s p
    rw [runLoop_running fuel e ht]
    exact ih t q

/-- In a full-length stream of one byte every `pc` reads that byte. -/
theorem streamRead_full {s : State} {b : Byte} (h : s.stream = some (List.replicate 65536 b)) (i : Word16) :
    streamRead s i = some b := by
  rw [streamRead, streamBytes, h, Option.getD_some, List.getElem?_replicate, if_pos i.isLt]

/-- A step that reads `OP_TAX` is `TAX`, and goes on. -/
theorem step_tax {s : State} (hr : s.istate = .running) (hb : streamRead s s.pc = some opTax) :
    step s = .next (writeRegFlags .x s.a (incPc s)) := by
  have hd : decode (fetchWindow s) = .ok (.tax, (streamRead s (s.pc + 1)).toList) := by
    rw [fetchWindow_some hb, decode_tax]
  exact step_of_decode hr hd

/-- The machine runs over the full-length stream of nothing but `TAX`. -/
def RunsFullTax (s : State) : Prop := s.istate = .running ∧ s.stream = some (List.replicate 65536 opTax)

theorem runsFullTax_step {s : State} (h : RunsFullTax s) :
    ∃ t, step s = .next t ∧ t.istate = .running ∧ RunsFullTax t := by
  obtain ⟨hi, hs⟩ := h
  exact ⟨_, step_tax hi (streamRead_full hs s.pc), hi, hi, hs⟩

/-- Settles O34, by the invariant that the machine runs over the full stream of `TAX`. -/
theorem fullStreamRunMayNeverEnd : Obligations.FullStreamRunMayNeverEnd := by
  intro s hr hs fuel
  rw [interpret_running hr]
  exact runLoop_unfinished RunsFullTax (fun _ => runsFullTax_step) fuel s ⟨hr, hs⟩

end Sys2Proof.Proofs
end

section
/-! The separate resets and the creation of a device (R190, R192). -/

namespace Sys2Proof.Proofs

open Sys2Proof.Machine Sys2Proof.Laws

/-- Where names are distinct, the reset under a device's name makes that device anew and no other. -/
theorem resetNamed_of_mem {s : State} (h : s.Inv) {c d : Device} (hc : c ∈ s.devices) (hd : d ∈ s.devices)
    (fresh : Nat) : resetNamed d.id fresh c = if c = d then { d with draw := fresh, store := [] } else c := by
  simp only [resetNamed, device_id_inj h.names.1 hc hd]
  split
  · rename_i e
    subst e
    rfl
  · rfl

theorem hostStep_resetDevice {s : State} {id : Nat} {d : Device} (h : anyDevice id s = some d) :
    hostStep (.resetDevice id) s = .ok .unit (resetDevice id s) := by
  simp only [hostStep, hostStepOf, h]

theorem hostStep_resetDevice_refused {s : State} {id : Nat} (h : anyDevice id s = none) :
    hostStep (.resetDevice id) s = .refused (.deviceNotHeld id) := by
  simp only [hostStep, hostStepOf, h]

/-- Settles O40: each reset writes its component's fields, and a name finds its one device. -/
theorem componentResetsAreSeparate : Obligations.ComponentResetsAreSeparate := by
  intro s
  refine ⟨rfl, rfl, rfl, fun d hd h => ?_, fun id hid => hostStep_resetDevice_refused (anyDevice_none hid),
    fun kind => rfl⟩
  rw [hostStep_resetDevice (anyDevice_of_mem h hd), resetDevice_eq,
    List.map_congr_left fun c hc => resetNamed_of_mem h (pool_mem_devices hc) hd s.fresh,
    List.map_congr_left fun b hb => by rw [resetNamed_of_mem h (binding_mem_devices hb) hd s.fresh]]

end Sys2Proof.Proofs
end

section
/-! Devices by the host's own operations, and the rules of reading and writing them (R61, R62, R65). -/

namespace Sys2Proof.Proofs

open Sys2Proof.Machine Sys2Proof.Laws

theorem hostStep_deviceRead {s : State} {id : Nat} {d : Device} (h : poolDevice id s = some d) (offset : Nat) :
    hostStep (.deviceRead id offset) s = answerByte s (d.readByte offset) := by
  simp only [hostStep, hostStepOf, h]

theorem hostStep_deviceWrite {s : State} {id : Nat} {d : Device} (h : poolDevice id s = some d) (offset : Nat)
    (b : Byte) : hostStep (.deviceWrite id offset b) s = answerDevice id s (d.writeByte offset b) := by
  simp only [hostStep, hostStepOf, h]

theorem hostStep_deviceDump {s : State} {id : Nat} {d : Device} (h : anyDevice id s = some d) :
    hostStep (.deviceDump id) s = .ok (.bytes d.dump) s := by
  simp only [hostStep, hostStepOf, h]

theorem hostStep_deviceDump_refused {s : State} {id : Nat} (h : anyDevice id s = none) :
    hostStep (.deviceDump id) s = .refused (.deviceNotHeld id) := by
  simp only [hostStep, hostStepOf, h]

theorem device_writeByte_outside {d : Device} {i : Nat} (hi : d.capacity ≤ i) (b : Byte) :
    d.writeByte i b = .error (.outOfRangeAccess i) := by
  obtain ⟨lt, -⟩ | ⟨lt, -⟩ | ⟨-, e⟩ := device_writeByte_cases d i b
  · exact absurd hi (not_le.mpr lt)
  · exact absurd hi (not_le.mpr lt)
  · exact e

/-- What a device reads once a byte inside its capacity is stored: that byte there, and elsewhere as before. -/
theorem device_readByte_write {d : Device} (hw : Memory.wf d.store) {i : Nat} (hi : i < d.capacity) (b : Byte) (j : Nat) :
    Device.readByte { d with store := Memory.write d.store i b } j = if j = i then .ok b else d.readByte j := by
  simp only [Device.readByte, Device.byteAt, memory_read_write _ _ _ _ hw]
  by_cases e : j = i
  · simp [e, hi]
  · simp [e]

/-- Once the host has replaced a device it holds by an update of it, it finds the new device under the old name. -/
theorem poolDevice_setPoolDevice {s : State} (h : s.Inv) {d d' : Device} (hd : d ∈ s.pool)
    (hu : DeviceUpdate s.fresh d d') : poolDevice d.id (setPoolDevice d.id d' s) = some d' := by
  have inv := (keepsInvariants_setPoolDevice (poolDevice_of_mem h hd) hu).1 h
  have mem : d' ∈ (setPoolDevice d.id d' s).pool := List.mem_map.mpr ⟨d, hd, if_pos rfl⟩
  rw [← hu.id]
  rw [← hu.id] at inv mem
  exact poolDevice_of_mem inv mem

/-- Settles O42: a Ram's write stores one byte, and the host finds the written device under its name. -/
theorem ramWriteThenRead : Obligations.RamWriteThenRead := by
  intro d offset b hk hw
  refine ⟨fun hi => ?_, fun ho => ⟨device_writeByte_outside ho b, fun s h hd => ?_⟩⟩
  · have write := device_writeByte_ram hk hi b
    have read := device_readByte_write hw hi b
    refine ⟨_, write, by rw [read, if_pos rfl], fun j hj => by rw [read, if_neg hj], rfl, fun s h hd => ?_⟩
    refine ⟨_, rfl, ?_, ?_⟩
    · rw [hostStep_deviceWrite (poolDevice_of_mem h hd), write, ← setPoolDevice_of_mem h hd]
      rfl
    · rw [← setPoolDevice_of_mem h hd,
        hostStep_deviceRead (poolDevice_setPoolDevice h hd (deviceUpdate_writeByte _ write)), read, if_pos rfl]
      rfl
  · rw [hostStep_deviceWrite (poolDevice_of_mem h hd), device_writeByte_outside ho]
    rfl

theorem device_dump_length (d : Device) : d.dump.length = d.capacity := by
  simp [Device.dump]

/-- A dump lists what each offset reads as (R65). -/
theorem device_dump_getElem? (d : Device) (offset : Nat) (b : Byte) :
    d.dump[offset]? = some b ↔ d.readByte offset = .ok b := by
  obtain ⟨lt, read⟩ | ⟨ge, read⟩ := device_readByte_cases d offset
  · simp [Device.dump, lt, read]
  · simp [Device.dump, ge, read]

/-- Settles O45: the dump lists the reads, and a name finds its one device. -/
theorem dumpIsTheWholeContents : Obligations.DumpIsTheWholeContents :=
  ⟨fun d => ⟨device_dump_length d, device_dump_getElem? d, fun _ h hd => hostStep_deviceDump (anyDevice_of_mem h hd)⟩,
    fun _ _ hid => hostStep_deviceDump_refused (anyDevice_none hid)⟩

end Sys2Proof.Proofs
end

section
/-! The bus: overlap, routing, and its reads and writes (R57 to R60). -/

namespace Sys2Proof.Proofs

open Sys2Proof.Machine Sys2Proof.Laws

/-- Settles O46: two ranges that overlap share the higher of their starts, which is an address. -/
theorem overlapMeansASharedAddress : Obligations.OverlapMeansASharedAddress := by
  intro r q hr hq
  refine ⟨fun h => ⟨BitVec.ofNat 16 (max r.start q.start), ?_⟩, fun ⟨_, har, haq⟩ => overlaps_of_contains har haq⟩
  rw [rangeWf_iff] at hr hq
  rw [overlaps_iff] at h
  have shared : (BitVec.ofNat 16 (max r.start q.start)).toNat = max r.start q.start := by
    rw [BitVec.toNat_ofNat, Nat.mod_eq_of_lt (by omega)]
  rw [contains_iff, contains_iff, shared]
  omega

/-- Where ranges do not overlap, two bindings that contain one address are one binding. -/
theorem binding_eq_of_contains {bs : List Binding} (apart : bs.Pairwise fun b c => b.range.overlaps c.range = false)
    {addr : Word16} {b c : Binding} (hb : b ∈ bs) (hc : c ∈ bs) (ab : b.range.contains addr = true)
    (ac : c.range.contains addr = true) : b = c := by
  by_contra ne
  have symm : Std.Symm fun b c : Binding => b.range.overlaps c.range = false :=
    ⟨fun b c h => (overlaps_comm c.range b.range).trans h⟩
  exact absurd (overlaps_of_contains ab ac) (Bool.eq_false_iff.mp (apart.forall hb hc ne))

/-- Where ranges do not overlap, `route` finds exactly the binding that contains the address. -/
theorem route_eq_some_iff {bs : List Binding} (apart : bs.Pairwise fun b c => b.range.overlaps c.range = false)
    {addr : Word16} {b : Binding} : route bs addr = some b ↔ b ∈ bs ∧ b.range.contains addr = true := by
  refine ⟨route_some, fun ⟨hb, ab⟩ => ?_⟩
  cases hr : route bs addr with
  | none =>
    rw [route_none_iff] at hr
    rw [hr b hb] at ab
    cases ab
  | some c =>
    obtain ⟨hc, ac⟩ := route_some hr
    rw [binding_eq_of_contains apart hc hb ac ab]

/-- Settles O47: in either order `route` finds the one binding that contains the address. -/
theorem routingIsDeterministic : Obligations.RoutingIsDeterministic := by
  intro bs cs addr apart perm
  have apart' : cs.Pairwise fun b c => b.range.overlaps c.range = false :=
    perm.pairwise apart fun h => (overlaps_comm _ _).trans h
  refine ⟨Option.ext fun b => ?_, fun b => route_eq_some_iff apart⟩
  rw [route_eq_some_iff apart', route_eq_some_iff apart, perm.mem_iff]

theorem hostStep_busRead (s : State) (addr : Word16) :
    hostStep (.busRead addr) s = answerByte s (memRead addr s) := rfl

theorem hostStep_busWrite_ok {s t : State} {addr : Word16} {v : Byte} (h : memWrite addr v s = .ok t) :
    hostStep (.busWrite addr v) s = .ok .unit t := by
  simp only [hostStep, hostStepOf, h]

theorem memRead_routed {s : State} {addr : Word16} {b : Binding} (h : route s.bindings addr = some b) :
    memRead addr s = b.dev.readByte (addr.toNat - b.range.start) := by
  simp only [memRead, h]

theorem memRead_unmapped {s : State} {addr : Word16} (h : route s.bindings addr = none) :
    memRead addr s = .error (.unmappedAddress addr) := by
  simp only [memRead, h]

theorem memWrite_routed {s : State} {addr : Word16} {v : Byte} {b : Binding} {d : Device}
    (h : route s.bindings addr = some b) (hw : b.dev.writeByte (addr.toNat - b.range.start) v = .ok d) :
    memWrite addr v s = .ok { s with bindings := replaceRouted s.bindings addr d } := by
  simp only [memWrite, h, hw]

/-- Settles O48: `route` finds the binding that contains the address. -/
theorem busReadTranslatesAndDelegates : Obligations.BusReadTranslatesAndDelegates := by
  intro s addr h
  refine ⟨fun b hb hc => ?_, fun hn => ?_⟩
  · rw [hostStep_busRead, memRead_routed ((route_eq_some_iff h.apart).mpr ⟨hb, hc⟩)]
  · rw [hostStep_busRead, memRead_unmapped (route_none_iff.mpr hn)]
    rfl

/-- The routing of every address after a routed write: the binding found before it, the written one with its new
device. -/
theorem route_replaceRouted {bs : List Binding} (apart : bs.Pairwise fun b c => b.range.overlaps c.range = false)
    {addr : Word16} {b : Binding} (h : route bs addr = some b) (d : Device) (other : Word16) :
    route (replaceRouted bs addr d) other =
      (route bs other).map fun c => if c = b then { b with dev := d } else c := by
  rw [replaceRouted_eq_map d apart h, route, List.find?_map]
  congr 2
  funext c
  simp only [Function.comp_apply]
  split
  · rename_i e
    rw [e]
  · rfl

/-- A bus read after a routed write: the written device answers it where the written binding is routed to, and every
other device as before. -/
theorem memRead_replaceRouted {s : State} (h : s.Inv) {addr : Word16} {b : Binding}
    (hr : route s.bindings addr = some b) (d : Device) (other : Word16) :
    memRead other { s with bindings := replaceRouted s.bindings addr d } =
      if route s.bindings other = some b then d.readByte (other.toNat - b.range.start) else memRead other s := by
  have after := route_replaceRouted h.apart hr d other
  cases ho : route s.bindings other with
  | none =>
    rw [ho] at after
    rw [memRead_unmapped after, memRead_unmapped ho, if_neg (by simp)]
  | some c =>
    rw [ho] at after
    rw [memRead_routed after, memRead_routed ho]
    by_cases e : c = b
    · simp [e]
    · simp [e]

/-- Settles O49: the write reaches the one binding that contains the address, and two addresses of one range have two
local offsets. -/
theorem busWriteThenRead : Obligations.BusWriteThenRead := by
  intro s b addr v h hb hc hk hi
  have routed := (route_eq_some_iff h.apart).mpr ⟨hb, hc⟩
  have write := device_writeByte_ram hk hi v
  have written := memWrite_routed routed write
  have read := device_readByte_write (h.stores _ (binding_mem_devices hb)).canonical hi v
  refine ⟨_, _, write, hostStep_busWrite_ok written, written, ?_, fun other ne => ?_, replaceRouted_ranges _ _ _, ?_⟩
  · rw [memRead_replaceRouted h routed, if_pos routed, read, if_pos rfl]
  · rw [memRead_replaceRouted h routed]
    split
    · rename_i ho
      have offsets : other.toNat - b.range.start ≠ addr.toNat - b.range.start := by
        have := (contains_iff _ _).mp hc
        have := (contains_iff _ _).mp (route_some ho).2
        have := mt BitVec.eq_of_toNat_eq ne
        omega
      rw [read, if_neg offsets, memRead_routed ho]
    · rfl
  · rw [replaceRouted_eq_map _ h.apart routed]

end Sys2Proof.Proofs
end

section
/-! Runs over any table of handlers: how a step continues or ends a run, and which errors each operation returns (R112,
R154, R168). -/

namespace Sys2Proof.Proofs

open Sys2Proof.Machine Sys2Proof.Laws

/-! ## The run over a table, one step at a time -/

theorem stepWith_running {table : OpcodeTable} {s : State} (h : s.istate = .running) :
    stepWith table s = (cycleWith table s).toOutcome := by
  simp only [stepWith, h]

theorem interpretWith_running {table : OpcodeTable} {s : State} (h : s.istate = .running) (fuel : Nat) :
    interpretWith table fuel s = runLoopOf (stepWith table) fuel s := by
  simp only [interpretWith, interpretOf, h]

theorem interpretWith_next {table : OpcodeTable} {s t : State} (hs : s.istate = .running)
    (hc : cycleWith table s = .next t) (ht : t.istate = .running) (fuel : Nat) :
    interpretWith table (fuel + 1) s = interpretWith table fuel t := by
  rw [interpretWith_running hs, interpretWith_running ht]
  simp [runLoopOf, stepWith_running hs, hc, StepResult.toOutcome, ht]

theorem interpretWith_halt {table : OpcodeTable} {s t : State} (hs : s.istate = .running)
    (hc : cycleWith table s = .halt t) (ht : t.istate = .halted) (fuel : Nat) :
    interpretWith table (fuel + 1) s = .ok t := by
  rw [interpretWith_running hs]
  simp [runLoopOf, stepWith_running hs, hc, StepResult.toOutcome, ht]

theorem interpretWith_fault {table : OpcodeTable} {s t : State} {e : ErrorKind} (hs : s.istate = .running)
    (hc : cycleWith table s = .fault e t) (fuel : Nat) : interpretWith table (fuel + 1) s = .error e t := by
  rw [interpretWith_running hs]
  simp [runLoopOf, stepWith_running hs, hc, StepResult.toOutcome, raise]

/-- A halt of the cycle is in place, and changes the status alone (R114). -/
theorem cycleWith_halt {table : OpcodeTable} {s t : State} (h : cycleWith table s = .halt t) : t = haltRun s := by
  obtain e | ⟨_, -, -, -, e⟩ | ⟨_, k, -, -, -, e⟩ := cycleWith_cases table s <;> rw [e] at h
  · cases h; rfl
  · cases h
  · exact absurd h (runHandler_ne_halt k _ t)

/-- A cycle that does not halt leaves the status as it was (R123, R151). -/
theorem cycleWith_istate {table : OpcodeTable} {s : State} (h : ∀ t, cycleWith table s ≠ .halt t) :
    (cycleWith table s).after.istate = s.istate := by
  obtain e | ⟨_, -, -, -, e⟩ | ⟨_, k, -, -, -, e⟩ := cycleWith_cases table s
  · exact absurd e (h _)
  · rw [e]; rfl
  · rw [e, runHandler_istate, incPc_istate]

/-- Settles O58: the cases of the cycle's outcome, of the run's result, and of the bus access's answer. -/
theorem extendedRunsReturnHandlerErrors : Obligations.ExtendedRunsReturnHandlerErrors := by
  refine ⟨fun table fuel s hs => ?_, fun table fuel s => ?_,
    fun addr k s => ⟨fun _ => runHandler_load_error, fun _ => runHandler_load_ok⟩,
    fun addr v k s => ⟨fun _ => runHandler_store_error, fun _ => runHandler_store_ok⟩⟩
  · have status := cycleWith_istate (table := table) (s := s)
    cases hc : cycleWith table s with
    | next t =>
      rw [hc] at status
      have ht : t.istate = .running := (status fun _ h => by cases h).trans hs
      exact ⟨ht, interpretWith_next hs hc ht fuel⟩
    | halt t =>
      have ht := cycleWith_halt hc
      exact ⟨ht, interpretWith_halt hs hc (by rw [ht, haltRun_istate]) fuel⟩
    | fault e t =>
      rw [hc] at status
      exact ⟨(status fun _ h => by cases h).trans hs, interpretWith_fault hs hc fuel⟩
  · cases hr : interpretWith table fuel s with
    | ok t => simp only [hostStepWith, hostStepOf, hr]
    | error e t => simp only [hostStepWith, hostStepOf, hr]
    | unfinished t => simp only [hostStepWith, hostStepOf, hr]
    | refused r => exact interpretOf_ne_refused (stepWith_ne_refused table) fuel s r hr

/-! ## The error kinds of each operation -/

theorem device_readByte_error {d : Device} {i : Nat} {e : ErrorKind} (h : d.readByte i = .error e) :
    e.returnedByDevice := by
  obtain ⟨-, r⟩ | ⟨-, r⟩ := device_readByte_cases d i <;> rw [r] at h <;> cases h
  trivial

theorem device_writeByte_error {d : Device} {i : Nat} {b : Byte} {e : ErrorKind} (h : d.writeByte i b = .error e) :
    e.returnedByDevice := by
  obtain ⟨-, -, r⟩ | ⟨-, -, r⟩ | ⟨-, r⟩ := device_writeByte_cases d i b <;> rw [r] at h <;> cases h
  trivial

theorem device_load_error {d : Device} {i : Nat} {bs : List Byte} {e : ErrorKind} (h : d.load i bs = .error e) :
    e.returnedByDevice := by
  obtain ⟨-, r⟩ | ⟨-, r⟩ := device_load_cases d i bs <;> rw [r] at h <;> cases h
  trivial

/-- What a device returns the bus returns (R67). -/
theorem returnedByBus_of_returnedByDevice {e : ErrorKind} (h : e.returnedByDevice) : e.returnedByBus := by
  cases e with
  | outOfRangeAccess _ => trivial
  | _ => cases h

theorem memRead_error {addr : Word16} {s : State} {e : ErrorKind} (h : memRead addr s = .error e) :
    e.returnedByBus := by
  obtain ⟨-, r⟩ | ⟨b, -, r⟩ := memRead_cases addr s <;> rw [r] at h
  · cases h; trivial
  · exact returnedByBus_of_returnedByDevice (device_readByte_error h)

theorem memWrite_error {addr : Word16} {v : Byte} {s : State} {e : ErrorKind} (h : memWrite addr v s = .error e) :
    e.returnedByBus := by
  obtain ⟨-, r⟩ | ⟨b, e', -, hw, r⟩ | ⟨b, d, -, -, r⟩ := memWrite_cases addr v s <;> rw [r] at h <;> cases h
  · trivial
  · exact returnedByBus_of_returnedByDevice (device_writeByte_error hw)

theorem hostAttach_error {r : AddrRange} {id : Nat} {s t : State} {e : ErrorKind} (h : hostAttach r id s = .error e t) :
    e.returnedByAttach := by
  unfold hostAttach at h
  split at h
  · split at h
    · cases h
    · rename_i d hd
      obtain ⟨-, ha⟩ | ⟨-, ha⟩ := attachBinding_cases r d s.bindings <;> rw [ha] at h <;> cases h
      trivial
  · cases h

theorem answerByte_error {s t : State} {r : Except ErrorKind Byte} {e : ErrorKind} (h : answerByte s r = .error e t) :
    r = .error e := by
  cases r <;> cases h
  rfl

theorem answerDevice_error {id : Nat} {s t : State} {r : Except ErrorKind Device} {e : ErrorKind}
    (h : answerDevice id s r = .error e t) : r = .error e := by
  cases r <;> cases h
  rfl

/-- The errors a handler raises: the absent operand, and a bus access's where it has one (R154). -/
theorem runHandler_error {h : Handler} {s t : State} {e : ErrorKind} (hf : runHandler h s = .fault e t) :
    e.returnedByRun ∨ (e.returnedByBus ∧ ¬ h.busFree) := by
  induction h generalizing s with
  | done => cases hf
  | fetch k ih =>
    cases hv : streamRead s s.pc with
    | none => rw [runHandler_fetch_none hv] at hf; cases hf; exact .inl trivial
    | some v =>
      rw [runHandler_fetch_some hv] at hf
      exact (ih v hf).imp_right fun ⟨he, hk⟩ => ⟨he, fun free => hk (free v)⟩
  | get r k ih => exact (ih _ hf).imp_right fun ⟨he, hk⟩ => ⟨he, fun free => hk (free _)⟩
  | set r v k ih => exact ih hf
  | setZero v k ih => exact ih hf
  | setNegative v k ih => exact ih hf
  | load addr k ih =>
    cases hv : memRead addr s with
    | error e' => rw [runHandler_load_error hv] at hf; cases hf; exact .inr ⟨memRead_error hv, id⟩
    | ok v => rw [runHandler_load_ok hv] at hf; exact (ih v hf).imp_right fun ⟨he, _⟩ => ⟨he, id⟩
  | store addr v k ih =>
    cases hv : memWrite addr v s with
    | error e' => rw [runHandler_store_error hv] at hf; cases hf; exact .inr ⟨memWrite_error hv, id⟩
    | ok u => rw [runHandler_store_ok hv] at hf; exact (ih hf).imp_right fun ⟨he, _⟩ => ⟨he, id⟩

/-- The handler a table gives a byte stands in one of its rows. -/
theorem lookup_mem {table : OpcodeTable} {b : Byte} {h : Handler} (hl : table.lookup b = some h) :
    ∃ row ∈ table, row.2 = h := by
  obtain ⟨row, hr, e⟩ := Option.map_eq_some_iff.mp hl
  exact ⟨row, List.mem_of_find?_eq_some hr, e⟩

/-- An error kind that `interpret()` over a table may return (R168): a bus kind only where some handler has a bus
access. -/
def ReturnedByTable (table : OpcodeTable) (e : ErrorKind) : Prop :=
  e.returnedByRun ∨ (e.returnedByBus ∧ ∃ row ∈ table, ¬ row.2.busFree)

theorem cycleWith_error {table : OpcodeTable} {s t : State} {e : ErrorKind} (h : cycleWith table s = .fault e t) :
    ReturnedByTable table e := by
  obtain hc | ⟨_, -, -, -, hc⟩ | ⟨_, k, -, -, hl, hc⟩ := cycleWith_cases table s <;> rw [hc] at h
  · cases h
  · cases h; exact .inl trivial
  · obtain ⟨row, hrow, rfl⟩ := lookup_mem hl
    exact (runHandler_error h).imp_right fun ⟨he, hk⟩ => ⟨he, row, hrow, hk⟩

theorem stepWith_error {table : OpcodeTable} {s t : State} {e : ErrorKind}
    (h : stepWith table s = .fault (.raised e t)) : ReturnedByTable table e := by
  unfold stepWith at h
  split at h
  · cases h; exact .inl trivial
  · cases h
  · cases hc : cycleWith table s with
    | next u => rw [hc] at h; cases h
    | halt u => rw [hc] at h; cases h
    | fault e' u => rw [hc] at h; cases h; exact cycleWith_error hc

theorem interpretWith_error {table : OpcodeTable} {fuel : Nat} {s t : State} {e : ErrorKind}
    (h : interpretWith table fuel s = .error e t) : ReturnedByTable table e :=
  interpretOf_error (ReturnedByTable table) (.inl trivial) (fun _ _ _ => stepWith_error) h

/-- Settles O60, by the cases of the operation: each error is that of the shared operation it is made of. -/
theorem eachOperationReturnsItsOwnKinds : Obligations.EachOperationReturnsItsOwnKinds := by
  intro table op s t e h
  simp only [hostStepWith] at h
  cases op with
  | interpret fuel =>
    simp only [hostStepOf] at h
    split at h <;> cases h
    rename_i hr
    exact interpretWith_error hr
  | attach r id => exact hostAttach_error h
  | busRead addr => exact memRead_error (answerByte_error h)
  | busWrite addr v =>
    simp only [hostStepOf] at h
    split at h <;> cases h
    rename_i hm
    exact memWrite_error hm
  | deviceRead id offset =>
    simp only [hostStepOf] at h
    split at h
    · cases h
    · exact device_readByte_error (answerByte_error h)
  | deviceWrite id offset v =>
    simp only [hostStepOf] at h
    split at h
    · cases h
    · exact device_writeByte_error (answerDevice_error h)
  | deviceLoad id offset data =>
    simp only [hostStepOf] at h
    split at h
    · cases h
    · exact device_load_error (answerDevice_error h)
  | resetDevice id => simp only [hostStepOf] at h; split at h <;> cases h
  | loadSource source => simp only [hostStepOf] at h; split at h <;> cases h
  | deviceDump id => simp only [hostStepOf] at h; split at h <;> cases h
  | _ => cases h

end Sys2Proof.Proofs
end

section
/-! Decoding and encoding are inverse to each other, one instruction at a time and over a whole stream (R90 to R99). -/

namespace Sys2Proof.Proofs

open Sys2Proof.Machine Sys2Proof.Laws

/-! ## The three opcode bytes are distinct (R5, R95) -/

theorem opLdaImm_ne_opHlt : opLdaImm ≠ opHlt := by decide

theorem opTax_ne_opHlt : opTax ≠ opHlt := by decide

theorem opTax_ne_opLdaImm : opTax ≠ opLdaImm := by decide

/-! ## One instruction -/

/-- The bytes of an instruction decode to it, and what follows them is left (R90, R92). -/
theorem decode_encode_append (i : Instr) (rest : List Byte) : decode (encode i ++ rest) = .ok (i, rest) := by
  cases i with
  | hlt => exact decode_hlt rest
  | lda v => exact decode_lda v rest
  | tax => exact decode_tax rest

/-- Only the bytes of an instruction decode to it. -/
theorem encode_append_of_decode {bytes rest : List Byte} {i : Instr} (h : decode bytes = .ok (i, rest)) :
    encode i ++ rest = bytes := by
  cases bytes with
  | nil => cases h
  | cons b bytes =>
    obtain ⟨rfl, -⟩ | ⟨rfl, -⟩ | ⟨rfl, -⟩ | ⟨nh, nl, nt, -⟩ := decodeOpcode_cases b
    · rw [decode_hlt] at h; cases h; rfl
    · cases bytes with
      | nil => rw [decode_lda_missing] at h; cases h
      | cons v bytes => rw [decode_lda] at h; cases h; rfl
    · rw [decode_tax] at h; cases h; rfl
    · rw [decode_unsupported bytes nh nl nt] at h; cases h

/-! ## The walk of a stream -/

/-- A walk goes on past a decoded instruction. -/
theorem walk_succ_of_decode {bytes after : List Byte} {i : Instr} (h : decode bytes = .ok (i, after)) (fuel : Nat) :
    walk (fuel + 1) bytes = (walk fuel after).map (i :: ·) := by
  cases bytes with
  | nil => cases h
  | cons b rest =>
    simp only [walk, h]
    cases walk fuel after <;> rfl

/-- A walk stops at bytes that are no instruction. -/
theorem walk_succ_of_reject {b : Byte} {rest : List Byte} {r : DecodeReject} (h : decode (b :: rest) = .error r)
    (fuel : Nat) : walk (fuel + 1) (b :: rest) = .error r := by
  simp only [walk, h]

/-- A walk of an assembled stream finds its instructions, as every one of them has a byte to pay a step with. -/
theorem walk_assemble (is : List Instr) : ∀ fuel : Nat, (assemble is).length ≤ fuel →
    walk fuel (assemble is) = .ok is := by
  induction is with
  | nil => intro fuel _; cases fuel <;> rfl
  | cons i is ih =>
    intro fuel hf
    rw [assemble, List.length_append] at hf
    have pos := encode_length_pos i
    obtain ⟨fuel, rfl⟩ : ∃ n, fuel = n + 1 := ⟨fuel - 1, by omega⟩
    rw [assemble, walk_succ_of_decode (decode_encode_append i _), ih fuel (by omega)]
    rfl

/-- What a walk accepts is the assembly of what it finds. -/
theorem assemble_of_walk (fuel : Nat) : ∀ (bytes : List Byte) (is : List Instr), walk fuel bytes = .ok is →
    assemble is = bytes := by
  induction fuel with
  | zero => intro bytes is h; cases bytes <;> cases h; rfl
  | succ fuel ih =>
    intro bytes is h
    cases bytes with
    | nil => cases h; rfl
    | cons b rest =>
      cases hd : decode (b :: rest) with
      | error r => rw [walk_succ_of_reject hd] at h; cases h
      | ok p =>
        obtain ⟨i, after⟩ := p
        rw [walk_succ_of_decode hd] at h
        cases hw : walk fuel after with
        | error r => rw [hw] at h; cases h
        | ok found =>
          rw [hw] at h
          cases h
          rw [assemble, ih after found hw, encode_append_of_decode hd]

/-! ## The boundaries -/

/-- The length of an opcode byte: 2 for `OP_LDA_IMM` and 1 for every other byte, an unsupported one too (R99). -/
theorem decodeOpcode_length (b : Byte) : (decodeOpcode b).length = if b = opLdaImm then 2 else 1 := by
  obtain ⟨rfl, e⟩ | ⟨rfl, e⟩ | ⟨rfl, e⟩ | ⟨-, nl, -, e⟩ := decodeOpcode_cases b <;> rw [e]
  · rfl
  · rfl
  · rfl
  · rw [if_neg nl]; rfl

/-- The boundaries after the first are those of the bytes past the first opcode's length, later by that length (R99). -/
theorem boundaries_cons (b : Byte) (rest : List Byte) :
    boundaries (b :: rest) =
      0 :: (boundaries (rest.drop ((decodeOpcode b).length - 1))).map (· + (decodeOpcode b).length) := by
  have pos := opcode_length_pos (decodeOpcode b)
  rw [boundaries, boundariesFrom, boundariesFrom_skip, Nat.zero_add, Nat.add_sub_cancel' pos,
    ← Nat.zero_add (decodeOpcode b).length, boundariesFrom_shift, Nat.zero_add, boundaries]

/-- An instruction at the start of a stream has the first boundary, and the others are later by its length. -/
theorem boundaries_encode_append (i : Instr) (rest : List Byte) :
    boundaries (encode i ++ rest) = 0 :: (boundaries rest).map (· + (encode i).length) := by
  cases i with
  | hlt => exact boundaries_cons opHlt rest
  | lda v => exact boundaries_cons opLdaImm (v :: rest)
  | tax => exact boundaries_cons opTax rest

/-- The boundaries of an assembled stream are where its instructions start. -/
theorem boundaries_assemble (is : List Instr) :
    boundaries (assemble is) = (List.range is.length).map fun k => (assemble (is.take k)).length := by
  induction is with
  | nil => rfl
  | cons i is ih =>
    rw [assemble, boundaries_encode_append, ih, List.length_cons, List.range_succ_eq_map]
    simp [assemble, Nat.add_comm]

/-! ## The obligations -/

/-- Settles O1, by the four outcomes of an opcode byte, whose three parameters are distinct. -/
theorem opcodeByteDecides : Obligations.OpcodeByteDecides := by
  intro b
  obtain ⟨rfl, e⟩ | ⟨rfl, e⟩ | ⟨rfl, e⟩ | ⟨nh, nl, nt, e⟩ := decodeOpcode_cases b <;> rw [e]
  · simp [opLdaImm_ne_opHlt.symm, opTax_ne_opHlt.symm]
  · simp [opLdaImm_ne_opHlt, opTax_ne_opLdaImm.symm]
  · simp [opTax_ne_opHlt, opTax_ne_opLdaImm]
  · simp [nh, nl, nt, eq_comm]

/-- Settles O3: an instruction's bytes decode to it, and no others do. -/
theorem decodeIsTheInverseOfEncode : Obligations.DecodeIsTheInverseOfEncode :=
  fun _ i rest _ => ⟨fun h => (encode_append_of_decode h).symm, fun h => h ▸ decode_encode_append i rest⟩

/-- Settles O4: the walk by the list of instructions one way and by its fuel the other, the boundaries by the length of
the first opcode byte. -/
theorem disassembleAgreesWithAssemble : Obligations.DisassembleAgreesWithAssemble := by
  refine ⟨fun is => walk_assemble is _ le_rfl, fun bytes => assemble_of_walk _ bytes, ⟨rfl, fun b rest => ?_⟩,
    fun is => ⟨?_, fun k hk => ?_⟩⟩
  · rw [← decodeOpcode_length]
    exact boundaries_cons b rest
  · rw [boundaries_assemble, List.length_map, List.length_range]
  · rw [boundaries_assemble, List.getElem?_map, List.getElem?_range hk, Option.map_some]

end Sys2Proof.Proofs
end

section
/-! Steps and runs over encoded bytes: the unsupported opcode, and the stream of whole instructions (R97, R171). -/

namespace Sys2Proof.Proofs

open Sys2Proof.Machine Sys2Proof.Laws

/-! ## The unsupported opcode -/

/-- A step that reads a byte of no row raises it, with `pc` past it (R97, R115). -/
theorem step_unsupported {s : State} {b : Byte} (hr : s.istate = .running) (hb : streamRead s s.pc = some b)
    (nh : b ≠ opHlt) (nl : b ≠ opLdaImm) (nt : b ≠ opTax) :
    step s = .fault (.raised (.unsupportedOpcode b) (incPc s)) := by
  simp [step, hr, fetchWindow_some hb, decode_unsupported _ nh nl nt, raiseUnsupportedOpcode, raise]

/-- Settles O18, by the status and the cases of a step in `Running`. -/
theorem unsupportedOpcodeExactly : Obligations.UnsupportedOpcodeExactly := by
  intro s t b
  constructor
  · intro h
    have hr : s.istate = .running := by
      cases hi : s.istate with
      | unloaded => rw [step_unloaded hi] at h; cases h
      | halted => rw [step_halted hi] at h; cases h
      | running => rfl
    obtain ⟨-, e⟩ | ⟨-, e⟩ | ⟨v, -, -, e⟩ | ⟨-, -, e⟩ | ⟨-, e⟩ | ⟨c, hb, nh, nl, nt, e⟩ := step_running_cases hr <;>
      rw [e] at h <;> cases h
    exact ⟨hr, hb, nh, nl, nt, rfl⟩
  · rintro ⟨hr, hb, nh, nl, nt, rfl⟩
    exact step_unsupported hr hb nh nl nt

/-! ## A stream of whole instructions -/

/-- Where no increment of `pc` inside the stream wraps, the window is the next two bytes, or what is left of them
(R27, R92). -/
theorem fetchWindow_short_stream {s : State} (short : streamLength s ≤ 65535) :
    fetchWindow s = ((streamBytes s).drop s.pc.toNat).take 2 := by
  cases hb : streamRead s s.pc with
  | none =>
    rw [fetchWindow_none hb, List.drop_eq_nil_of_le ((streamRead_eq_none_iff s s.pc).mp hb), List.take_nil]
  | some b =>
    have one := pc_add_one_toNat ((lt_streamLength_of_streamRead hb).trans_le short)
    obtain ⟨lt, e⟩ := List.getElem?_eq_some_iff.mp hb
    rw [fetchWindow_some hb, List.drop_eq_getElem_cons lt, e, List.take_succ_cons, List.take_one, List.head?_drop,
      streamRead, one]

/-- An instruction at `pc` is the one the step decodes. -/
theorem step_encoded {s : State} {i : Instr} {before after : List Byte} (hr : s.istate = .running)
    (hs : s.stream = some (before ++ (encode i ++ after))) (short : (before ++ (encode i ++ after)).length ≤ 65535)
    (hp : s.pc.toNat = before.length) : step s = exec i s := by
  have bytes : streamBytes s = before ++ (encode i ++ after) := by rw [streamBytes, hs, Option.getD_some]
  have window : fetchWindow s = (encode i ++ after).take 2 := by
    rw [fetchWindow_short_stream (by rw [streamLength, bytes]; exact short), bytes, hp, List.drop_left]
  obtain ⟨rest, hd⟩ : ∃ rest, decode (fetchWindow s) = .ok (i, rest) := by
    rw [window]
    cases i with
    | hlt => exact ⟨_, decode_hlt _⟩
    | lda v => exact ⟨_, decode_lda v _⟩
    | tax => exact ⟨_, decode_tax _⟩
  exact step_of_decode hr hd

/-- An instruction other than `HLT` leaves the status as it was. -/
theorem exec_istate {i : Instr} {s t : State} (ne : i ≠ .hlt) (h : exec i s = .next t) : t.istate = s.istate := by
  obtain ⟨rfl, -⟩ | ⟨v, -, rfl⟩ | ⟨-, rfl⟩ := exec_next_cases h
  · exact absurd rfl ne
  · rfl
  · rfl

/-- The machine runs over a stream shorter than 65536 bytes that holds the instructions `is` from `pc` to its end. -/
def RunsOver (is : List Instr) (s : State) : Prop :=
  s.istate = .running ∧ ∃ before, s.stream = some (before ++ assemble is) ∧
    (before ++ assemble is).length ≤ 65535 ∧ s.pc.toNat = before.length

/-- With no byte at `pc` the run halts naturally (R113). -/
theorem step_absent {s : State} (hr : s.istate = .running) (hb : streamRead s s.pc = none) :
    step s = .next (haltRun s) := by
  simp only [step, hr, fetchWindow_none hb, decode_nil]

/-- At the end of the stream the run halts naturally (R113). -/
theorem runsOver_nil {s : State} (h : RunsOver [] s) : step s = .next (haltRun s) := by
  obtain ⟨hr, before, hs, -, hp⟩ := h
  have absent : streamRead s s.pc = none := by
    simp [streamRead, streamBytes, hs, hp, assemble]
  exact step_absent hr absent

/-- Before the end a step runs the next instruction, which halts the run or leaves the others to run over. -/
theorem runsOver_cons {i : Instr} {is : List Instr} {s : State} (h : RunsOver (i :: is) s) :
    step s = .next (haltRun s) ∨ ∃ t, step s = .next t ∧ RunsOver is t := by
  obtain ⟨hr, before, hs, short, hp⟩ := h
  have run := step_encoded hr hs short hp
  by_cases hi : i = .hlt
  · subst hi
    exact .inl run
  · obtain ⟨t, ht⟩ := exec_next i s
    obtain ⟨stream, -⟩ := exec_sameOutside ht
    refine .inr ⟨t, run.trans ht, (exec_istate hi ht).trans hr, before ++ encode i, ?_, ?_, ?_⟩
    · rw [stream, hs, List.append_assoc]; rfl
    · rw [List.append_assoc]; exact short
    · simp only [assemble, List.length_append] at short
      rw [programCounterAdvance i s t ht, if_neg hi, hp, List.length_append, Nat.mod_eq_of_lt (by omega)]

/-- A run over whole instructions ends without error: by the halt of the last step at the latest. -/
theorem runLoop_runsOver (is : List Instr) : ∀ s : State, RunsOver is s → ∃ t, runLoop (is.length + 1) s = .ok t := by
  induction is with
  | nil => exact fun s h => ⟨_, runLoop_halted _ (runsOver_nil h) rfl⟩
  | cons i is ih =>
    intro s h
    obtain e | ⟨t, e, ht⟩ := runsOver_cons h
    · exact ⟨_, runLoop_halted _ e rfl⟩
    · rw [runLoop_running _ e ht.1]
      exact ih t ht

/-- Settles O35, by induction on the instructions from `pc` to the end. -/
theorem wholeInstructionsRunSafely : Obligations.WholeInstructionsRunSafely := by
  intro s before is hr hs short hp
  obtain ⟨t, ht⟩ := runLoop_runsOver is s ⟨hr, before, hs, short, hp⟩
  exact ⟨_, t, (interpret_running hr _).trans ht⟩

end Sys2Proof.Proofs
end

section
/-! The tables of handlers: the base table is the machine's own, and an added row changes nothing but its byte (R94,
R150, R157). -/

namespace Sys2Proof.Proofs

open Sys2Proof.Machine Sys2Proof.Laws

/-! ## The operand fetch (R117) -/

theorem fetchOperand_none {s : State} (h : streamRead s s.pc = none) :
    fetchOperand s = .error (.expectedParameter s.pc) := by
  simp only [fetchOperand, h]

theorem fetchOperand_some {s : State} {v : Byte} (h : streamRead s s.pc = some v) :
    fetchOperand s = .ok (v, incPc s) := by
  simp only [fetchOperand, h]

/-! ## The cycle of R119, one equation for each of its outcomes -/

theorem cycle_absent {s : State} (h : streamRead s s.pc = none) : cycle s = .halt (haltRun s) := by
  simp only [cycle, h]

theorem cycle_hlt {s : State} (h : streamRead s s.pc = some opHlt) : cycle s = .halt (haltRun s) := by
  simp only [cycle, h, if_true]

theorem cycle_lda {s : State} {v : Byte} (h : streamRead s s.pc = some opLdaImm)
    (hv : streamRead s (s.pc + 1) = some v) : cycle s = .next (writeRegFlags .a v (incPc (incPc s))) := by
  simp only [cycle, h, if_neg opLdaImm_ne_opHlt, decodeOpcode_ldaImm, fetchOperand_some (s := incPc s) hv]
  rfl

theorem cycle_lda_missing {s : State} (h : streamRead s s.pc = some opLdaImm)
    (hv : streamRead s (s.pc + 1) = none) : cycle s = .fault (.expectedParameter (s.pc + 1)) (incPc s) := by
  simp only [cycle, h, if_neg opLdaImm_ne_opHlt, decodeOpcode_ldaImm, fetchOperand_none (s := incPc s) hv, incPc_pc]

theorem cycle_tax {s : State} (h : streamRead s s.pc = some opTax) :
    cycle s = .next (writeRegFlags .x s.a (incPc s)) := by
  simp only [cycle, h, if_neg opTax_ne_opHlt, decodeOpcode_tax]
  rfl

theorem cycle_unsupported {s : State} {b : Byte} (h : streamRead s s.pc = some b) (nh : b ≠ opHlt)
    (nl : b ≠ opLdaImm) (nt : b ≠ opTax) : cycle s = .fault (.unsupportedOpcode b) (incPc s) := by
  simp [cycle, h, nh, decodeOpcode_other nh nl nt]

/-- A step in `Running` is the cycle of R119. -/
theorem step_running_eq_cycle {s : State} (hr : s.istate = .running) : step s = (cycle s).toOutcome := by
  obtain ⟨hb, e⟩ | ⟨hb, e⟩ | ⟨v, hb, hv, e⟩ | ⟨hb, hv, e⟩ | ⟨hb, e⟩ | ⟨b, hb, nh, nl, nt, e⟩ := step_running_cases hr <;>
    rw [e]
  · rw [cycle_absent hb]; rfl
  · rw [cycle_hlt hb]; rfl
  · rw [cycle_lda hb hv]; rfl
  · rw [cycle_lda_missing hb hv]; rfl
  · rw [cycle_tax hb]; rfl
  · rw [cycle_unsupported hb nh nl nt]; rfl

/-! ## The cycle over a table -/

theorem cycleWith_absent (table : OpcodeTable) {s : State} (h : streamRead s s.pc = none) :
    cycleWith table s = .halt (haltRun s) := by
  simp only [cycleWith, h]

theorem cycleWith_hlt (table : OpcodeTable) {s : State} (h : streamRead s s.pc = some opHlt) :
    cycleWith table s = .halt (haltRun s) := by
  simp only [cycleWith, h, if_true]

theorem cycleWith_row {table : OpcodeTable} {s : State} {b : Byte} {k : Handler} (h : streamRead s s.pc = some b)
    (nh : b ≠ opHlt) (hl : table.lookup b = some k) : cycleWith table s = runHandler k (incPc s) := by
  simp only [cycleWith, h, if_neg nh, hl]

theorem cycleWith_no_row {table : OpcodeTable} {s : State} {b : Byte} (h : streamRead s s.pc = some b)
    (nh : b ≠ opHlt) (hl : table.lookup b = none) :
    cycleWith table s = .fault (.unsupportedOpcode b) (incPc s) := by
  simp only [cycleWith, h, if_neg nh, hl]

/-- The cycle sees nothing of a table but the handler of the byte at `pc`. -/
theorem cycleWith_congr {table table' : OpcodeTable} {s : State}
    (h : ∀ b, streamRead s s.pc = some b → table.lookup b = table'.lookup b) :
    cycleWith table s = cycleWith table' s := by
  cases hb : streamRead s s.pc with
  | none => rw [cycleWith_absent table hb, cycleWith_absent table' hb]
  | some b => simp only [cycleWith, hb, h b hb]

/-! ## The base table -/

theorem baseTable_lookup_lda : baseTable.lookup opLdaImm = some ldaHandler := rfl

theorem baseTable_lookup_tax : baseTable.lookup opTax = some taxHandler := rfl

theorem baseTable_lookup_other {b : Byte} (nl : b ≠ opLdaImm) (nt : b ≠ opTax) : baseTable.lookup b = none := by
  simp [OpcodeTable.lookup, baseTable, nl.symm, nt.symm]

/-- The end of a handler with flags is the register write with its flags (R153). -/
theorem runHandler_writeFlags (r : Reg) (v : Byte) (s : State) :
    runHandler (.writeFlags r v) s = .next (writeRegFlags r v s) := rfl

/-- The cycle over the base table is the cycle of R119. -/
theorem cycleWith_baseTable (s : State) : cycleWith baseTable s = cycle s := by
  cases hb : streamRead s s.pc with
  | none => rw [cycleWith_absent _ hb, cycle_absent hb]
  | some b =>
    obtain ⟨rfl, -⟩ | ⟨rfl, -⟩ | ⟨rfl, -⟩ | ⟨nh, nl, nt, -⟩ := decodeOpcode_cases b
    · rw [cycleWith_hlt _ hb, cycle_hlt hb]
    · rw [cycleWith_row hb opLdaImm_ne_opHlt baseTable_lookup_lda, ldaHandler]
      cases hv : streamRead s (s.pc + 1) with
      | none => rw [cycle_lda_missing hb hv, runHandler_fetch_none hv, incPc_pc]
      | some v => rw [cycle_lda hb hv, runHandler_fetch_some hv, runHandler_writeFlags]
    · rw [cycleWith_row hb opTax_ne_opHlt baseTable_lookup_tax, cycle_tax hb]
      rfl
    · rw [cycleWith_no_row hb nh (baseTable_lookup_other nl nt), cycle_unsupported hb nh nl nt]

/-- The step over the base table is the machine's step. -/
theorem stepWith_baseTable (s : State) : stepWith baseTable s = step s := by
  cases hi : s.istate with
  | unloaded => rw [step_unloaded hi]; simp only [stepWith, hi, raise]
  | halted => rw [step_halted hi]; simp only [stepWith, hi]
  | running => rw [stepWith_running hi, cycleWith_baseTable, step_running_eq_cycle hi]

/-- Settles O53: the cycles agree at every byte, so the steps do, and the runs and host operations over them. -/
theorem baseTableGivesTheCycle : Obligations.BaseTableGivesTheCycle := by
  intro s
  have run : interpretWith baseTable = interpret :=
    funext fun fuel => funext fun u => interpretOf_congr stepWith_baseTable fuel u
  exact ⟨cycleWith_baseTable s, stepWith_baseTable s, fun fuel => by rw [run],
    fun op => by rw [hostStepWith, hostStep, run]⟩

/-! ## An added row -/

/-- A row is added only for a byte that has none and is not the halt byte, and comes last (R98, R150). -/
theorem extend_eq_some {table table' : OpcodeTable} {b : Byte} {h : Handler} (e : table.extend b h = some table') :
    b ≠ opHlt ∧ b ∉ table.map Prod.fst ∧ table' = table ++ [(b, h)] := by
  unfold OpcodeTable.extend at e
  split at e
  · cases e
  · rename_i admitted
    cases e
    exact ⟨fun hh => admitted (.inl hh), fun hm => admitted (.inr hm), rfl⟩

/-- A table is well-formed exactly when no two rows claim one byte and none the halt byte (R157). -/
theorem table_wf_iff (table : OpcodeTable) :
    table.wf = true ↔ (table.map Prod.fst).Nodup ∧ opHlt ∉ table.map Prod.fst := by
  simp [OpcodeTable.wf, opcodeRowsWf]

theorem table_wf_append {table : OpcodeTable} {b : Byte} (h : Handler) (wf : table.wf = true) (nh : b ≠ opHlt)
    (new : b ∉ table.map Prod.fst) : OpcodeTable.wf (table ++ [(b, h)]) = true := by
  obtain ⟨nodup, halt⟩ := (table_wf_iff table).mp wf
  rw [table_wf_iff, List.map_append]
  exact ⟨nodup.append (List.nodup_singleton b) (by simpa using new), by simpa [nh.symm] using halt⟩

/-- A byte that no row claims has no handler. -/
theorem lookup_eq_none {table : OpcodeTable} {b : Byte} (h : b ∉ table.map Prod.fst) : table.lookup b = none := by
  rw [OpcodeTable.lookup, Option.map_eq_none_iff, List.find?_eq_none]
  intro row hrow claimed
  exact h (List.mem_map.mpr ⟨row, hrow, eq_of_beq claimed⟩)

/-- A last row gives its byte its handler where no row before it does. -/
theorem lookup_append_self {table : OpcodeTable} {b : Byte} (h : Handler) (new : table.lookup b = none) :
    OpcodeTable.lookup (table ++ [(b, h)]) b = some h := by
  rw [OpcodeTable.lookup, Option.map_eq_none_iff] at new
  simp [OpcodeTable.lookup, List.find?_append, new]

/-- A last row changes the handler of no other byte. -/
theorem lookup_append_of_ne (table : OpcodeTable) {b c : Byte} (h : Handler) (ne : c ≠ b) :
    OpcodeTable.lookup (table ++ [(b, h)]) c = table.lookup c := by
  simp [OpcodeTable.lookup, List.find?_append, ne.symm]

/-- Settles O56: the added row comes last, for a byte that no row claims. -/
theorem addedRowsKeepTheOthers : Obligations.AddedRowsKeepTheOthers := by
  intro table table' b h wf e
  obtain ⟨nh, new, rfl⟩ := extend_eq_some e
  refine ⟨table_wf_append h wf nh new, fun s hb => ?_, fun s hb => ?_⟩
  · exact cycleWith_row hb nh (lookup_append_self h (lookup_eq_none new))
  · exact cycleWith_congr fun c hc => lookup_append_of_ne table h fun eq => hb (eq ▸ hc)

end Sys2Proof.Proofs
end

section
/-! The engine's cycle, its halts, and what an error leaves (R113, R119, R120, R123, R124). -/

namespace Sys2Proof.Proofs

open Sys2Proof.Machine Sys2Proof.Laws

/-- Settles O6: the model's step and the spec's pseudocode have the same outcome in each case of a step in `Running`. -/
theorem stepFollowsTheCycle : Obligations.StepFollowsTheCycle :=
  fun _ => step_running_eq_cycle

/-- Settles O7: decoding that succeeds leaves the step nothing but the meaning. -/
theorem stepRunsTheDecodedInstruction : Obligations.StepRunsTheDecodedInstruction :=
  fun _ _ _ => step_of_decode

/-! ## The halts -/

/-- Settles O9: a `pc` at or past the end of the stream reads no byte. -/
theorem naturalHaltAtTheEndOfTheStream : Obligations.NaturalHaltAtTheEndOfTheStream :=
  fun s hr past => step_absent hr ((streamRead_eq_none_iff s s.pc).mpr past)

/-- A step at a halt byte is `HLT` (R114). -/
theorem step_hlt {s : State} (hr : s.istate = .running) (hb : streamRead s s.pc = some opHlt) :
    step s = .next (haltRun s) := by
  have hd : decode (fetchWindow s) = .ok (.hlt, (streamRead s (s.pc + 1)).toList) := by
    rw [fetchWindow_some hb, decode_hlt]
  exact step_of_decode hr hd

/-- A run in `Halted` returns at once (R110). -/
theorem interpret_halted {s : State} (h : s.istate = .halted) (fuel : Nat) : interpret fuel s = .ok s := by
  rw [interpret_eq, h]

/-- Settles O10: the halt byte decodes to `HLT`, which changes the status alone. -/
theorem haltEndsTheRunInPlace : Obligations.HaltEndsTheRunInPlace :=
  ⟨rfl, decode_hlt, fun _ => rfl, fun _ => step_hlt, fun _ => interpret_halted rfl⟩

/-! ## What an error leaves -/

/-- Everything a step in `Running` can raise: the error of a byte of no row, or that of an operand absent at the `pc`
left; either leaves `pc` advanced by one. -/
theorem step_running_raises {s t : State} {e : ErrorKind} (hr : s.istate = .running)
    (h : step s = .fault (.raised e t)) :
    t = incPc s ∧ ((∃ b, e = .unsupportedOpcode b) ∨
      (e = .expectedParameter t.pc ∧ streamRead t t.pc = none)) := by
  obtain ⟨-, r⟩ | ⟨-, r⟩ | ⟨v, -, -, r⟩ | ⟨-, absent, r⟩ | ⟨-, r⟩ | ⟨b, -, -, -, -, r⟩ := step_running_cases hr <;>
    rw [r] at h <;> cases h
  · exact ⟨rfl, .inr ⟨rfl, absent⟩⟩
  · exact ⟨rfl, .inl ⟨b, rfl⟩⟩

/-- Settles O21: all that an error leaves changed is the advance of `pc`. -/
theorem errorsArePrecise : Obligations.ErrorsArePrecise := by
  intro s t e hr h
  obtain ⟨rfl, -⟩ := step_running_raises hr h
  exact ⟨rfl, BitVec.add_sub_cancel s.pc 1⟩

/-- Settles O22: the status left is `Running`, and at an absent operand's position the next run finds no byte. -/
theorem runsResumeAfterAnError : Obligations.RunsResumeAfterAnError := by
  intro s t e hr h
  obtain ⟨rfl, raised⟩ := step_running_raises hr h
  have running : (incPc s).istate = .running := hr
  refine ⟨interpret_running running, fun _ _ => rfl, fun p fuel he => ?_⟩
  obtain ⟨b, rfl⟩ | ⟨-, absent⟩ := raised
  · cases he
  · rw [interpret_running running]
    exact runLoop_halted fuel (step_absent running absent) rfl

end Sys2Proof.Proofs
end

section
/-! The status under the host's operations: only a reset of the Interpreter unloads (R110). -/

namespace Sys2Proof.Proofs

open Sys2Proof.Machine Sys2Proof.Laws

theorem memWrite_istate {addr : Word16} {v : Byte} {s t : State} (h : memWrite addr v s = .ok t) :
    t.istate = s.istate := by
  obtain ⟨-, e⟩ | ⟨_, _, -, -, e⟩ | ⟨_, _, -, -, e⟩ := memWrite_cases addr v s <;> rw [e] at h <;> cases h
  rfl

theorem hostAttach_istate {r : AddrRange} {id : Nat} {s t : State} (h : (hostAttach r id s).after = some t) :
    t.istate = s.istate := by
  obtain rfl | ⟨_, -, -, -, rfl⟩ := hostAttach_after_cases h <;> rfl

theorem answerDevice_istate {id : Nat} {s t : State} {r : Except ErrorKind Device}
    (h : (answerDevice id s r).after = some t) : t.istate = s.istate := by
  cases r <;> cases h <;> rfl

/-- Everything a host operation can do to the status: the reset of the Interpreter, a load, a run, and the others,
which leave it as it was. -/
theorem hostStepOf_istate_cases {run : Nat → State → RunResult} {op : HostOp} {s t : State}
    (h : (hostStepOf run op s).after = some t) :
    op = .resetInterpreter ∨ t.istate = .running ∨ (∃ fuel, (run fuel s).after = some t) ∨ t.istate = s.istate := by
  have unchanged (e : t.istate = s.istate) : op = .resetInterpreter ∨ t.istate = .running ∨
      (∃ fuel, (run fuel s).after = some t) ∨ t.istate = s.istate := .inr (.inr (.inr e))
  cases op with
  | resetInterpreter => exact .inl rfl
  | loadSource source =>
    simp only [hostStepOf] at h
    split at h <;> cases h
    exact .inr (.inl rfl)
  | interpret fuel =>
    rw [hostStepOf_interpret_after] at h
    exact .inr (.inr (.inl ⟨fuel, h⟩))
  | setReg r v => cases h; exact unchanged (setReg_istate r _ s)
  | resetCpu | resetBus | createDevice _ | updateZeroFlag _ | updateNegativeFlag _ | incrementPc | getReg _ | getPc
  | getFlag _ => cases h; exact unchanged rfl
  | resetDevice _ | deviceDump _ =>
    simp only [hostStepOf] at h
    split at h <;> cases h
    exact unchanged rfl
  | attach r id => exact unchanged (hostAttach_istate h)
  | busRead addr =>
    simp only [hostStepOf, answerByte_after] at h
    cases h; exact unchanged rfl
  | busWrite addr v =>
    simp only [hostStepOf] at h
    split at h <;> cases h
    · exact unchanged rfl
    · rename_i hm
      exact unchanged (memWrite_istate hm)
  | deviceRead id offset =>
    simp only [hostStepOf] at h
    split at h
    · cases h
    · rw [answerByte_after] at h; cases h; exact unchanged rfl
  | deviceWrite _ _ _ | deviceLoad _ _ _ =>
    simp only [hostStepOf] at h
    split at h
    · cases h
    · exact unchanged (answerDevice_istate h)

/-- No step leads to `Unloaded`. -/
theorem step_ne_unloaded {s t : State} (hs : s.istate ≠ .unloaded) (h : stateAfter (step s) = some t) :
    t.istate ≠ .unloaded :=
  step_keeps (fun u => u.istate ≠ .unloaded) (fun _ _ _ => IState.noConfusion) (fun _ p => p)
    (fun r v u p => writeRegFlags_istate r v u ▸ p) hs h

/-- Settles O29, by the cases of what an operation does to the status; a run keeps what its steps keep. -/
theorem onlyResetUnloads : Obligations.OnlyResetUnloads := by
  intro op s t h hs ht
  obtain reset | running | ⟨fuel, hr⟩ | same := hostStepOf_istate_cases h
  · exact reset
  · rw [running] at ht; cases ht
  · exact absurd ht (interpretOf_keeps (fun u => u.istate ≠ .unloaded) (fun _ _ => step_ne_unloaded) hs hr)
  · exact absurd (same ▸ ht) hs

end Sys2Proof.Proofs
end

section
/-! A run is the iteration of steps, and its result is stable (R112). -/

namespace Sys2Proof.Proofs

open Sys2Proof.Machine Sys2Proof.Laws

/-- The iteration of steps stands still in `Halted` (R110). -/
theorem iterateSteps_halted {s : State} (h : s.istate = .halted) (n : Nat) : iterateSteps n s = .next s := by
  induction n with
  | zero => exact iterateSteps_zero s
  | succ n ih => rw [iterateSteps_next n (step_halted h), ih]

/-- How a step in `Running` bears on the run: it halts it, continues it, or ends it with an error whose state is still
`Running`. -/
theorem step_running_status {s : State} (hr : s.istate = .running) :
    (∃ t, step s = .next t ∧ t.istate = .halted) ∨ (∃ t, step s = .next t ∧ t.istate = .running) ∨
    (∃ e t, step s = .fault (.raised e t) ∧ t.istate = .running) := by
  obtain ⟨-, r⟩ | ⟨-, r⟩ | ⟨v, -, -, r⟩ | ⟨-, -, r⟩ | ⟨-, r⟩ | ⟨b, -, -, -, -, r⟩ := step_running_cases hr
  · exact .inl ⟨_, r, rfl⟩
  · exact .inl ⟨_, r, rfl⟩
  · exact .inr (.inl ⟨_, r, hr⟩)
  · exact .inr (.inr ⟨_, _, r, hr⟩)
  · exact .inr (.inl ⟨_, r, hr⟩)
  · exact .inr (.inr ⟨_, _, r, hr⟩)

/-- Everything a run from `Running` can answer, with the iteration of steps beside it. -/
theorem runLoop_iterateSteps_cases (fuel : Nat) : ∀ s : State, s.istate = .running →
    (∃ t, runLoop fuel s = .ok t ∧ iterateSteps fuel s = .next t ∧ t.istate = .halted) ∨
    (∃ e t, runLoop fuel s = .error e t ∧ iterateSteps fuel s = .fault (.raised e t) ∧ t.istate = .running) ∨
    (∃ t, runLoop fuel s = .unfinished t ∧ iterateSteps fuel s = .next t ∧ t.istate = .running) := by
  induction fuel with
  | zero => exact fun s hr => .inr (.inr ⟨s, runLoop_zero s, iterateSteps_zero s, hr⟩)
  | succ fuel ih =>
    intro s hr
    obtain ⟨t, h, ht⟩ | ⟨t, h, ht⟩ | ⟨e, t, h, ht⟩ := step_running_status hr
    · exact .inl ⟨t, runLoop_halted fuel h ht, (iterateSteps_next fuel h).trans (iterateSteps_halted ht fuel), ht⟩
    · rw [runLoop_running fuel h ht, iterateSteps_next fuel h]
      exact ih t ht
    · exact .inr (.inl ⟨e, t, runLoop_fault fuel h, iterateSteps_fault fuel h, ht⟩)

/-- No step is refused (R168). -/
theorem step_ne_refused (s : State) (r : Refusal) : step s ≠ .refused r :=
  stepWith_baseTable s ▸ stepWith_ne_refused baseTable s r

/-- Settles O30, by induction on the number of steps; the host's operation passes the run's result on. -/
theorem runIsTheIterationOfSteps : Obligations.RunIsTheIterationOfSteps := by
  refine ⟨fun fuel s hr => ?_, fun fuel s => ?_⟩
  · rw [interpret_running hr]
    obtain ⟨t, run, steps⟩ | ⟨e, t, run, steps⟩ | ⟨t, run, steps⟩ := runLoop_iterateSteps_cases fuel s hr <;>
      rw [run] <;> exact steps
  · cases hr : interpret fuel s with
    | ok t => simp only [hostStep, hostStepOf, hr]
    | error e t => simp only [hostStep, hostStepOf, hr]
    | unfinished t => simp only [hostStep, hostStepOf, hr]
    | refused r => exact interpretOf_ne_refused step_ne_refused fuel s r hr

/-- A run over any step that has ended has the same result for more steps. -/
theorem runLoopOf_stable (next : State → Host.Outcome State Fault Refusal) (more fuel : Nat) : ∀ s : State,
    (∀ t, runLoopOf next fuel s ≠ .unfinished t) → runLoopOf next (fuel + more) s = runLoopOf next fuel s := by
  induction fuel with
  | zero => exact fun s ended => absurd rfl (ended s)
  | succ fuel ih =>
    intro s ended
    rw [Nat.succ_add]
    simp only [runLoopOf] at ended ⊢
    split
    · rename_i t h
      simp only [h] at ended
      split
      · rfl
      · rename_i running
        simp only [if_neg running] at ended
        exact ih t ended
    · rfl
    · rfl

theorem interpretOf_stable (next : State → Host.Outcome State Fault Refusal) (fuel more : Nat) {s : State}
    (ended : ∀ t, interpretOf next fuel s ≠ .unfinished t) :
    interpretOf next (fuel + more) s = interpretOf next fuel s := by
  cases hi : s.istate with
  | unloaded => simp only [interpretOf, hi]
  | halted => simp only [interpretOf, hi]
  | running =>
    simp only [interpretOf, hi] at ended ⊢
    exact runLoopOf_stable next more fuel s ended

/-- A run that ends is not unfinished. -/
theorem interpret_ne_unfinished {fuel : Nat} {s : State} (h : EndsWithin fuel s) (t : State) :
    interpret fuel s ≠ .unfinished t := by
  obtain ⟨u, h⟩ | ⟨e, u, h⟩ := h <;> rw [h] <;> exact RunResult.noConfusion

/-- Settles O31, by induction on the number of steps within which the run ends. -/
theorem runResultIsStable : Obligations.RunResultIsStable :=
  fun fuel more _ h => interpretOf_stable step fuel more (interpret_ne_unfinished h)

end Sys2Proof.Proofs
end

section
/-! Added handlers: the order of their actions, and the 16-bit operand (R117, R152, R155). -/

namespace Sys2Proof.Proofs

open Sys2Proof.Machine Sys2Proof.Laws

/-- A handler with no fallible action does not raise (R152). -/
theorem runHandler_ne_fault {h : Handler} (infallible : h.infallible) {s t : State} {e : ErrorKind} :
    runHandler h s ≠ .fault e t := by
  induction h generalizing s with
  | done => exact StepResult.noConfusion
  | get r k ih => exact ih _ (infallible _)
  | set r v k ih => exact ih infallible
  | setZero v k ih => exact ih infallible
  | setNegative v k ih => exact ih infallible
  | fetch k => exact infallible.elim
  | load addr k => exact infallible.elim
  | store addr v k => exact infallible.elim

/-- Settles O55, by induction on the handler: up to its first write only operand fetches change the state, and after it
nothing raises. -/
theorem orderlyHandlersFailCleanly : Obligations.OrderlyHandlersFailCleanly := by
  intro h s t e orderly raised
  induction h generalizing s with
  | done => cases raised
  | fetch k ih =>
    cases hv : streamRead s s.pc with
    | none => rw [runHandler_fetch_none hv] at raised; cases raised; rfl
    | some v => rw [runHandler_fetch_some hv] at raised; exact ih v (incPc s) (orderly v) raised
  | get r k ih => exact ih _ s (orderly _) raised
  | set r v k => exact absurd raised (runHandler_ne_fault orderly)
  | setZero v k => exact absurd raised (runHandler_ne_fault orderly)
  | setNegative v k => exact absurd raised (runHandler_ne_fault orderly)
  | load addr k ih =>
    cases hv : memRead addr s with
    | error e' => rw [runHandler_load_error hv] at raised; cases raised; rfl
    | ok v => rw [runHandler_load_ok hv] at raised; exact ih v s (orderly v) raised
  | store addr v k =>
    cases hv : memWrite addr v s with
    | error e' => rw [runHandler_store_error hv] at raised; cases raised; rfl
    | ok u => rw [runHandler_store_ok hv] at raised; exact absurd raised (runHandler_ne_fault orderly)

/-- The number a 16-bit operand is: the first byte fetched is the low one (D14). -/
theorem wordOfBytes_toNat (low high : Byte) : (wordOfBytes low high).toNat = low.toNat + 256 * high.toNat := by
  rw [wordOfBytes, BitVec.toNat_append, ← Nat.shiftLeft_add_eq_or_of_lt low.isLt, Nat.shiftLeft_eq]
  omega

theorem incPc_incPc (s : State) : incPc (incPc s) = { s with pc := s.pc + 2 } := by
  simp only [incPc, BitVec.add_assoc]
  rfl

/-- Settles O57: a word is two operand fetches, the second at the `pc` that the first has advanced. -/
theorem wordOperandIsLittleEndian : Obligations.WordOperandIsLittleEndian := by
  intro k s
  refine ⟨fun low high hl hh => ⟨wordOfBytes low high, wordOfBytes_toNat low high, ?_⟩, runHandler_fetch_none,
    fun low hl hn => ?_⟩
  · rw [Handler.fetchWord, runHandler_fetch_some hl, runHandler_fetch_some (s := incPc s) hh, incPc_incPc]
  · rw [Handler.fetchWord, runHandler_fetch_some hl]
    exact runHandler_fetch_none (s := incPc s) hn

end Sys2Proof.Proofs
end

section
/-! The load of the accumulator: the meaning of `LDA #imm8`, and its step with and without an operand (R140). -/

namespace Sys2Proof.Proofs

open Sys2Proof.Machine Sys2Proof.Laws

/-- A write of `A` with its flags changes these three fields alone. -/
theorem writeRegFlags_a_eq (v : Byte) (s : State) :
    writeRegFlags .a v s = { s with a := v, z := decide (v = 0), n := decide (0x80 ≤ v.toNat) } := by
  rw [writeRegFlags, updateNegativeFlag_eq, updateZeroFlag_eq]
  rfl

theorem exec_lda (v : Byte) (s : State) : exec (.lda v) s =
    .next { s with pc := s.pc + 2, a := v, z := decide (v = 0), n := decide (0x80 ≤ v.toNat) } := by
  have meaning : exec (.lda v) s = .next (writeRegFlags .a v (incPc (incPc s))) := rfl
  rw [meaning, incPc_incPc, writeRegFlags_a_eq]

/-- A step at an `LDA #` byte whose operand is present is `LDA #`. -/
theorem step_lda {s : State} {v : Byte} (hr : s.istate = .running) (hb : streamRead s s.pc = some opLdaImm)
    (hv : streamRead s (s.pc + 1) = some v) : step s = exec (.lda v) s := by
  have hd : decode (fetchWindow s) = .ok (.lda v, []) := by
    rw [fetchWindow_pair hb hv, decode_lda]
  exact step_of_decode hr hd

/-- A step at an `LDA #` byte whose operand is absent raises at the index after it (D21), and `pc` has passed the
opcode. -/
theorem step_lda_missing {s : State} (hr : s.istate = .running) (hb : streamRead s s.pc = some opLdaImm)
    (hv : streamRead s (s.pc + 1) = none) :
    step s = .fault (.raised (.expectedParameter (s.pc + 1)) (incPc s)) := by
  rw [step_running_eq_cycle hr, cycle_lda_missing hb hv]
  rfl

/-- Settles O11: the two bytes at `pc` decode to `LDA #`, which passes them both; with the second absent the step
passes the first alone. -/
theorem loadAccumulatorImmediate : Obligations.LoadAccumulatorImmediate :=
  ⟨exec_lda, fun v s hr hb hv => (step_lda hr hb hv).trans (exec_lda v s), fun _ => step_lda_missing⟩

end Sys2Proof.Proofs
end

section
/-! The transfer of the accumulator: the meaning of `TAX`, as an instruction and as a step (R145). -/

namespace Sys2Proof.Proofs

open Sys2Proof.Machine Sys2Proof.Laws

/-- A write of `X` with its flags changes these three fields alone. -/
theorem writeRegFlags_x_eq (v : Byte) (s : State) :
    writeRegFlags .x v s = { s with x := v, z := decide (v = 0), n := decide (0x80 ≤ v.toNat) } := by
  rw [writeRegFlags, updateNegativeFlag_eq, updateZeroFlag_eq]
  rfl

/-- `TAX` passes the opcode and writes the old `A` to `X`, with both flags. -/
theorem exec_tax (s : State) : exec .tax s = .next (writeRegFlags .x s.a (incPc s)) := rfl

theorem exec_tax_eq (s : State) : exec .tax s =
    .next { s with pc := s.pc + 1, x := s.a, z := decide (s.a = 0), n := decide (0x80 ≤ s.a.toNat) } := by
  rw [exec_tax, writeRegFlags_x_eq]
  rfl

/-- Settles O12: the byte at `pc` decodes to `TAX`, whose advance and register write change the named fields alone. -/
theorem transferAccumulatorToIndex : Obligations.TransferAccumulatorToIndex :=
  ⟨exec_tax_eq, fun s hr hb => (step_tax hr hb).trans ((exec_tax s).symm.trans (exec_tax_eq s))⟩

end Sys2Proof.Proofs
end

section
/-! What a handler's run may touch: the bus outside a Ram's store stays, and `pc` moves by operand fetches (R36, R63,
R117, R151). -/

namespace Sys2Proof.Proofs

open Sys2Proof.Machine Sys2Proof.Laws

/-! ## A binding under the bus's writes -/

/-- What a binding keeps under any writes through the bus: its range, and of its device all but the store, which a Rom
keeps too. -/
def KeepsBinding (b c : Binding) : Prop :=
  c = { b with dev := { b.dev with store := c.dev.store } } ∧ (b.dev.kind = .rom → c = b)

theorem keepsBinding_refl (b : Binding) : KeepsBinding b b := ⟨rfl, fun _ => rfl⟩

theorem keepsBinding_trans {b c d : Binding} (h : KeepsBinding b c) (k : KeepsBinding c d) : KeepsBinding b d := by
  obtain ⟨hc, hrom⟩ := h
  obtain ⟨hd, krom⟩ := k
  refine ⟨by rw [hd, hc], fun rom => ?_⟩
  obtain rfl : c = b := hrom rom
  exact krom rom

/-- A device's own write (R62, R63) changes a Ram's store and nothing of a Rom. -/
theorem keepsBinding_writeByte {b : Binding} {i : Nat} {v : Byte} {d : Device} (h : b.dev.writeByte i v = .ok d) :
    KeepsBinding b { b with dev := d } := by
  obtain ⟨-, ram, e⟩ | ⟨-, -, e⟩ | ⟨-, e⟩ := device_writeByte_cases b.dev i v <;> rw [e] at h <;> cases h
  · exact ⟨rfl, fun rom => by rw [ram] at rom; cases rom⟩
  · exact keepsBinding_refl b

/-! ## The list of bindings -/

theorem forall₂_keepsBinding_refl (bs : List Binding) : List.Forall₂ KeepsBinding bs bs :=
  List.forall₂_same.mpr fun b _ => keepsBinding_refl b

theorem forall₂_keepsBinding_trans {bs cs ds : List Binding} (h : List.Forall₂ KeepsBinding bs cs)
    (k : List.Forall₂ KeepsBinding cs ds) : List.Forall₂ KeepsBinding bs ds := by
  induction h generalizing ds with
  | nil => exact k
  | cons head _ ih =>
    cases k with
    | cons head' tail' => exact .cons (keepsBinding_trans head head') (ih tail')

/-- A routed write reaches the routed binding alone, whether or not ranges overlap. -/
theorem forall₂_keepsBinding_replaceRouted {bs : List Binding} {addr : Word16} {b : Binding} {d : Device}
    (h : route bs addr = some b) (written : KeepsBinding b { b with dev := d }) :
    List.Forall₂ KeepsBinding bs (replaceRouted bs addr d) := by
  induction bs with
  | nil => exact .nil
  | cons c bs ih =>
    by_cases hc : c.range.contains addr = true
    · obtain rfl : c = b := by simpa [route, hc] using h
      rw [replaceRouted, if_pos hc]
      exact .cons written (forall₂_keepsBinding_refl bs)
    · have hr : route bs addr = some b := by simpa [route, List.find?_cons, hc] using h
      rw [replaceRouted, if_neg hc]
      exact .cons (keepsBinding_refl c) (ih hr)

/-! ## The state outside the Cpu -/

/-- A bus write that succeeds changes the list of bindings alone, and each binding of it keeps what it may. -/
theorem memWrite_ok {addr : Word16} {v : Byte} {s t : State} (h : memWrite addr v s = .ok t) :
    t = { s with bindings := t.bindings } ∧ List.Forall₂ KeepsBinding s.bindings t.bindings := by
  obtain ⟨-, e⟩ | ⟨_, _, -, -, e⟩ | ⟨b, d, hr, hw, e⟩ := memWrite_cases addr v s <;> rw [e] at h <;> cases h
  exact ⟨rfl, forall₂_keepsBinding_replaceRouted hr (keepsBinding_writeByte hw)⟩

/-- What a handler leaves alone outside the Cpu, the status apart. -/
structure HandlerFrame (s t : State) : Prop where
  stream : t.stream = s.stream
  pool : t.pool = s.pool
  fresh : t.fresh = s.fresh
  bindings : List.Forall₂ KeepsBinding s.bindings t.bindings

theorem handlerFrame_refl (s : State) : HandlerFrame s s := ⟨rfl, rfl, rfl, forall₂_keepsBinding_refl _⟩

theorem handlerFrame_trans {s t u : State} (h : HandlerFrame s t) (k : HandlerFrame t u) : HandlerFrame s u :=
  ⟨k.stream.trans h.stream, k.pool.trans h.pool, k.fresh.trans h.fresh,
    forall₂_keepsBinding_trans h.bindings k.bindings⟩

theorem handlerFrame_of_sameOutside {s t : State} (h : s.SameOutside t) : HandlerFrame s t := by
  obtain ⟨stream, bindings, pool, fresh⟩ := h
  exact ⟨stream, pool, fresh, bindings ▸ forall₂_keepsBinding_refl _⟩

theorem handlerFrame_memWrite {addr : Word16} {v : Byte} {s t : State} (h : memWrite addr v s = .ok t) :
    HandlerFrame s t := by
  obtain ⟨e, kept⟩ := memWrite_ok h
  exact ⟨by rw [e], by rw [e], by rw [e], kept⟩

/-- Every action of a handler keeps the frame, so its run does. -/
theorem runHandler_frame (h : Handler) (s : State) : HandlerFrame s (runHandler h s).after := by
  have keep {t u : State} (p : HandlerFrame s t) (same : t.SameOutside u) : HandlerFrame s u :=
    handlerFrame_trans p (handlerFrame_of_sameOutside same)
  exact runHandler_keeps (HandlerFrame s) (fun t _ _ p => keep p (sameOutside_incPc t))
    (fun r v t p => keep p (sameOutside_setReg r v t)) (fun v t p => keep p (sameOutside_updateZeroFlag v t))
    (fun v t p => keep p (sameOutside_updateNegativeFlag v t))
    (fun _ _ _ _ hw p => handlerFrame_trans p (handlerFrame_memWrite hw)) h s (handlerFrame_refl s)

/-! ## The operand fetches -/

/-- `t` is reached from `s` by `n` operand fetches, each of a byte of the stream, as far as `pc` can tell. -/
def FetchesTo (s t : State) (n : Nat) : Prop :=
  t.pc = s.pc + BitVec.ofNat 16 n ∧ ∀ k < n, streamRead s (s.pc + BitVec.ofNat 16 k) ≠ none

theorem fetchesTo_refl (s : State) : FetchesTo s s 0 :=
  ⟨(BitVec.add_zero s.pc).symm, fun k hk => absurd hk (Nat.not_lt_zero k)⟩

theorem fetchesTo_congr {s s' t : State} {n : Nat} (pc : s'.pc = s.pc) (stream : s'.stream = s.stream)
    (h : FetchesTo s' t n) : FetchesTo s t n := by
  simpa only [FetchesTo, pc, streamRead_congr stream] using h

/-- The `pc` that one fetch and then `k` more reach. -/
theorem pc_add_one_add_ofNat (pc : Word16) (k : Nat) :
    pc + 1 + BitVec.ofNat 16 k = pc + BitVec.ofNat 16 (k + 1) := by
  rw [Nat.add_comm k 1, BitVec.ofNat_add, BitVec.add_assoc]
  rfl

/-- A fetch that succeeds comes before those of the rest. -/
theorem fetchesTo_succ {s t : State} {v : Byte} {n : Nat} (hv : streamRead s s.pc = some v)
    (h : FetchesTo (incPc s) t n) : FetchesTo s t (n + 1) := by
  obtain ⟨pc, present⟩ := h
  refine ⟨by rw [pc, incPc_pc, pc_add_one_add_ofNat], fun k hk => ?_⟩
  cases k with
  | zero =>
    rw [BitVec.add_zero, hv]
    exact Option.some_ne_none v
  | succ k =>
    have rest := present k (Nat.lt_of_succ_lt_succ hk)
    rwa [streamRead_incPc, incPc_pc, pc_add_one_add_ofNat] at rest

theorem fetchCount_fetch_none {k : Byte → Handler} {s : State} (h : streamRead s s.pc = none) :
    (Handler.fetch k).fetchCount s = 0 := by
  simp only [Handler.fetchCount, fetchOperand_none h]

theorem fetchCount_fetch_some {k : Byte → Handler} {s : State} {v : Byte} (h : streamRead s s.pc = some v) :
    (Handler.fetch k).fetchCount s = (k v).fetchCount (incPc s) + 1 := by
  simp only [Handler.fetchCount, fetchOperand_some h]

theorem fetchCount_load_error {addr : Word16} {k : Byte → Handler} {s : State} {e : ErrorKind}
    (h : memRead addr s = .error e) : (Handler.load addr k).fetchCount s = 0 := by
  simp only [Handler.fetchCount, h]

theorem fetchCount_load_ok {addr : Word16} {k : Byte → Handler} {s : State} {v : Byte}
    (h : memRead addr s = .ok v) : (Handler.load addr k).fetchCount s = (k v).fetchCount s := by
  simp only [Handler.fetchCount, h]

theorem fetchCount_store_error {addr : Word16} {v : Byte} {k : Handler} {s : State} {e : ErrorKind}
    (h : memWrite addr v s = .error e) : (Handler.store addr v k).fetchCount s = 0 := by
  simp only [Handler.fetchCount, h]

theorem fetchCount_store_ok {addr : Word16} {v : Byte} {k : Handler} {s t : State}
    (h : memWrite addr v s = .ok t) : (Handler.store addr v k).fetchCount s = k.fetchCount t := by
  simp only [Handler.fetchCount, h]

/-- Of a handler's actions only the operand fetch moves `pc`, and each that succeeds moves it past a byte of the
stream. -/
theorem runHandler_fetchesTo (h : Handler) (s : State) : FetchesTo s (runHandler h s).after (h.fetchCount s) := by
  induction h generalizing s with
  | done => exact fetchesTo_refl s
  | fetch k ih =>
    cases hv : streamRead s s.pc with
    | none => rw [runHandler_fetch_none hv, fetchCount_fetch_none hv]; exact fetchesTo_refl s
    | some v => rw [runHandler_fetch_some hv, fetchCount_fetch_some hv]; exact fetchesTo_succ hv (ih v (incPc s))
  | get r k ih => exact ih _ s
  | set r v k ih =>
    obtain ⟨pc, -, -, -, stream, -⟩ := setReg_frame r v s
    exact fetchesTo_congr pc stream (ih (setReg r v s))
  | setZero v k ih => exact ih (updateZeroFlag v s)
  | setNegative v k ih => exact ih (updateNegativeFlag v s)
  | load addr k ih =>
    cases hv : memRead addr s with
    | error e => rw [runHandler_load_error hv, fetchCount_load_error hv]; exact fetchesTo_refl s
    | ok v => rw [runHandler_load_ok hv, fetchCount_load_ok hv]; exact ih v s
  | store addr v k ih =>
    cases hv : memWrite addr v s with
    | error e => rw [runHandler_store_error hv, fetchCount_store_error hv]; exact fetchesTo_refl s
    | ok t =>
      obtain ⟨e, -⟩ := memWrite_ok hv
      rw [runHandler_store_ok hv, fetchCount_store_ok hv]
      exact fetchesTo_congr (by rw [e]) (by rw [e]) (ih t)

/-- Settles O54: no action of a handler breaks its frame, and by induction on the handler `pc` moves by the operand
fetches that succeed. -/
theorem handlersTouchOnlyWhatTheyMay : Obligations.HandlersTouchOnlyWhatTheyMay := by
  intro h s
  obtain ⟨stream, pool, fresh, bindings⟩ := runHandler_frame h s
  obtain ⟨pc, present⟩ := runHandler_fetchesTo h s
  exact ⟨stream, runHandler_istate h s, pool, fresh, bindings, pc, present⟩

end Sys2Proof.Proofs
end

section
/-! The error kinds of a step and of a run, and when each is raised (R161, R163, R168, R171). -/

namespace Sys2Proof.Proofs

open Sys2Proof.Machine Sys2Proof.Laws

/-! ## The kinds a step raises -/

/-- Settles O20, by the status: only `Unloaded` raises `NoSourceLoaded`, and `Running` raises the two errors of the
cycle. -/
theorem stepRaisesThreeKindsOnly : Obligations.StepRaisesThreeKindsOnly := by
  intro s
  cases hi : s.istate with
  | unloaded => exact .inr (.inl (step_unloaded hi))
  | halted => exact .inl ⟨s, step_halted hi⟩
  | running =>
    obtain ⟨t, r, -⟩ | ⟨t, r, -⟩ | ⟨e, t, r, -⟩ := step_running_status hi
    · exact .inl ⟨t, r⟩
    · exact .inl ⟨t, r⟩
    · obtain ⟨-, ⟨b, rfl⟩ | ⟨rfl, -⟩⟩ := step_running_raises hi r
      · exact .inr (.inr (.inl ⟨b, t, r⟩))
      · exact .inr (.inr (.inr ⟨t.pc, t, r⟩))

/-! ## No source loaded -/

/-- A run from `Running` does not answer `NoSourceLoaded`: no step of it raises that error (R161). -/
theorem runLoop_ne_noSourceLoaded (fuel : Nat) : ∀ s t : State, s.istate = .running →
    runLoop fuel s ≠ .error .noSourceLoaded t := by
  induction fuel with
  | zero => exact fun s t _ => RunResult.noConfusion
  | succ fuel ih =>
    intro s t hr
    obtain ⟨u, h, hu⟩ | ⟨u, h, hu⟩ | ⟨e, u, h, -⟩ := step_running_status hr
    · rw [runLoop_halted fuel h hu]
      exact RunResult.noConfusion
    · rw [runLoop_running fuel h hu]
      exact ih u t hu
    · rw [runLoop_fault fuel h]
      rintro ⟨⟩
      obtain ⟨-, ⟨b, kind⟩ | ⟨kind, -⟩⟩ := step_running_raises hr h <;> cases kind

theorem interpret_eq_noSourceLoaded_iff (fuel : Nat) (s t : State) :
    interpret fuel s = .error .noSourceLoaded t ↔ s.istate = .unloaded ∧ t = s := by
  rw [interpret_eq]
  cases hi : s.istate with
  | unloaded => exact ⟨fun h => ⟨rfl, by cases h; rfl⟩, fun ⟨_, e⟩ => by rw [e]⟩
  | halted => exact ⟨RunResult.noConfusion, fun ⟨h, _⟩ => IState.noConfusion h⟩
  | running => exact ⟨fun h => absurd h (runLoop_ne_noSourceLoaded fuel s t hi), fun ⟨h, _⟩ => IState.noConfusion h⟩

/-- Settles O17, by the status, and in `Running` by induction on the number of steps; a load leaves the status
`Running`. -/
theorem noSourceLoadedExactlyWhenUnloaded : Obligations.NoSourceLoadedExactlyWhenUnloaded := by
  refine ⟨interpret_eq_noSourceLoaded_iff, fun fuel source s t h => ?_⟩
  obtain ⟨unloaded, -⟩ := (interpret_eq_noSourceLoaded_iff fuel _ t).mp h
  cases unloaded

/-! ## The absent operand -/

/-- A step that raises any error but `NoSourceLoaded` was taken in `Running` (R110, R161). -/
theorem running_of_step_raises {s t : State} {e : ErrorKind} (ne : e ≠ .noSourceLoaded)
    (h : step s = .fault (.raised e t)) : s.istate = .running := by
  cases hi : s.istate with
  | unloaded => rw [step_unloaded hi] at h; cases h; exact absurd rfl ne
  | halted => rw [step_halted hi] at h; cases h
  | running => rfl

/-- Settles O19, by the cases of a step in `Running`; an operand is absent at and past the end of the stream. -/
theorem expectedParameterExactly : Obligations.ExpectedParameterExactly := by
  intro s t p
  constructor
  · intro h
    have hr := running_of_step_raises ErrorKind.noConfusion h
    obtain ⟨-, e⟩ | ⟨-, e⟩ | ⟨v, -, -, e⟩ | ⟨hb, absent, e⟩ | ⟨-, e⟩ | ⟨b, -, -, -, -, e⟩ :=
      step_running_cases hr <;> rw [e] at h <;> cases h
    exact ⟨hr, hb, rfl, (streamRead_eq_none_iff s _).mp absent, rfl⟩
  · rintro ⟨hr, hb, rfl, past, rfl⟩
    exact step_lda_missing hr hb ((streamRead_eq_none_iff s _).mpr past)

end Sys2Proof.Proofs
end

section
/-! Words that decode to their instructions (R94, R97). -/

namespace Sys2Proof.Proofs

open Sys2Proof.Laws

/-- Settles O5: the bytes of an instruction's table word decode to it. -/
theorem tableWordRoundTrip : Obligations.TableWordRoundTrip := by
  intro i
  obtain ⟨rest, hd⟩ := decode_tableBytes i
  rw [decodeTableWord, hd]

/-- Settles O2: the words written out are the three opcode bytes and a byte that is none of them. -/
theorem decodesWrittenOutWords : Obligations.DecodesWrittenOutWords :=
  ⟨decode_hlt [], decode_lda 0xC0 [], decode_tax [],
    decode_unsupported [opTax] (by decide) (by decide) (by decide), decode_lda_missing⟩

end Sys2Proof.Proofs
end

section
/-! The values at reset, the run in `Halted`, and the host's own operations on the Cpu and the engine (R21, R40, R110,
R111). -/

namespace Sys2Proof.Proofs

open Sys2Proof.Machine Sys2Proof.Laws

/-- Settles O23: each is the field's value in the state after reset. -/
theorem resetValues : Obligations.ResetValues :=
  ⟨rfl, rfl, rfl, rfl, rfl, rfl, rfl, rfl, rfl, rfl⟩

/-- Settles O32, by the status, which the step and the run look at first. -/
theorem haltedRunReturnsAtOnce : Obligations.HaltedRunReturnsAtOnce :=
  fun _ halted => ⟨step_halted halted, interpret_halted halted⟩

/-- The value the host's `set` leaves wraps to 8 bits (R21). -/
theorem getReg_hostSetReg_toNat (r : Reg) (v : Nat) (s : State) : (getReg r (hostSetReg r v s)).toNat = v % 256 := by
  rw [hostSetReg, getReg_setReg, if_pos rfl, BitVec.toNat_ofNat]

theorem getReg_hostSetReg_of_ne {r q : Reg} (ne : q ≠ r) (v : Nat) (s : State) :
    getReg q (hostSetReg r v s) = getReg q s := by
  rw [hostSetReg, getReg_setReg, if_neg ne]

/-- A register write changes no field but the two registers (R21). -/
theorem setReg_restored (r : Reg) (v : Byte) (s : State) : { setReg r v s with a := s.a, x := s.x } = s := by
  cases r <;> rfl

/-- Settles O36: the host's `set` is the register write of the wrapped value. -/
theorem hostSetAndGet : Obligations.HostSetAndGet :=
  fun r _ v s => ⟨rfl, rfl, getReg_hostSetReg_toNat r v s, fun ne => getReg_hostSetReg_of_ne ne v s,
    setReg_restored r _ s⟩

theorem sourceWf_iff (source : List Byte) : sourceWf source = true ↔ source.length ≤ 65536 := decide_eq_true_iff

theorem sourceWf_eq_false_iff (source : List Byte) : sourceWf source = false ↔ 65536 < source.length :=
  decide_eq_false_iff_not.trans not_le

theorem hostStep_loadSource {source : List Byte} (h : sourceWf source = true) (s : State) :
    hostStep (.loadSource source) s = .ok .unit (loadSource source s) := by
  simp only [hostStep, hostStepOf, h, if_true]

theorem hostStep_loadSource_refused {source : List Byte} (h : sourceWf source = false) (s : State) :
    hostStep (.loadSource source) s = .refused (.sourceTooLong source.length) := by
  simp only [hostStep, hostStepOf, h, Bool.false_eq_true, if_false]

/-- Settles O39: the length alone decides whether a source is admitted. -/
theorem loadKeepsTheCpu : Obligations.LoadKeepsTheCpu :=
  fun source s => ⟨fun fits => hostStep_loadSource ((sourceWf_iff source).mpr fits) s,
    fun long => hostStep_loadSource_refused ((sourceWf_eq_false_iff source).mpr long) s⟩

end Sys2Proof.Proofs
end

section
/-! A device's read, a Rom's write and a device's load, by the host too (R61, R63, R64). -/

namespace Sys2Proof.Proofs

open Sys2Proof.Machine Sys2Proof.Laws

/-! ## Reads -/

theorem device_readByte_inside {d : Device} {i : Nat} (hi : i < d.capacity) : d.readByte i = .ok (d.byteAt i) :=
  if_pos hi

theorem device_readByte_outside {d : Device} {i : Nat} (hi : d.capacity ≤ i) :
    d.readByte i = .error (.outOfRangeAccess i) :=
  if_neg (not_lt.mpr hi)

/-- A stored byte is what the device holds at its offset (R61). -/
theorem device_byteAt_of_stored {d : Device} {i : Nat} {c : Byte} (h : Memory.read d.store i = some c) :
    d.byteAt i = c := by
  rw [Device.byteAt, h, Option.getD_some]

theorem device_readByte_stored {d : Device} {i : Nat} {c : Byte} (hi : i < d.capacity)
    (h : Memory.read d.store i = some c) : d.readByte i = .ok c := by
  rw [device_readByte_inside hi, device_byteAt_of_stored h]

/-- Settles O41: the capacity decides, and the host finds the device under its name. -/
theorem deviceReadIsBounded : Obligations.DeviceReadIsBounded :=
  fun d offset => ⟨fun hi => ⟨d.byteAt offset, device_readByte_inside hi, fun _ => device_byteAt_of_stored⟩,
    device_readByte_outside, fun _ h hd => hostStep_deviceRead (poolDevice_of_mem h hd) offset⟩

/-! ## A Rom's write -/

theorem device_writeByteUnder_outside {d : Device} {i : Nat} (hi : d.capacity ≤ i) (policy : RomWritePolicy)
    (b : Byte) : d.writeByteUnder policy i b = .error (.outOfRangeAccess i) :=
  if_neg (not_lt.mpr hi)

/-- The policy the spec leaves aside (R63, R167). -/
theorem device_writeByteUnder_fault_rom {d : Device} (hk : d.kind = .rom) {i : Nat} (hi : i < d.capacity) (b : Byte) :
    d.writeByteUnder .fault i b = .error (.readOnlyWrite i) := by
  simp only [Device.writeByteUnder, hi, if_true, hk]

/-- Replacing a device the host holds by itself changes nothing. -/
theorem setPoolDevice_self {s : State} (h : s.Inv) {d : Device} (hd : d ∈ s.pool) : setPoolDevice d.id d s = s := by
  have same : (fun c : Device => if c = d then d else c) = id := funext fun c => by
    split
    · rename_i e
      exact e.symm
    · rfl
  rw [setPoolDevice_of_mem h hd, same, List.map_id]

/-- Settles O43: in `ignore`, the machine's policy, the device written is the old one, which the host puts back in its
own place. -/
theorem romIsNeverWritten : Obligations.RomIsNeverWritten := by
  intro d offset b hk
  constructor
  · intro hi
    have write := device_writeByte_rom hk hi b
    refine ⟨write, device_writeByteUnder_fault_rom hk hi b, write, fun s h hd => ?_⟩
    rw [hostStep_deviceWrite (poolDevice_of_mem h hd), write, answerDevice, setPoolDevice_self h hd]
  · intro ho
    have write := device_writeByte_outside ho b
    refine ⟨fun policy => device_writeByteUnder_outside ho policy b, write, fun s h hd => ?_⟩
    rw [hostStep_deviceWrite (poolDevice_of_mem h hd), write, answerDevice]

/-! ## A device's load -/

theorem hostStep_deviceLoad {s : State} {id : Nat} {d : Device} (h : poolDevice id s = some d) (offset : Nat)
    (data : List Byte) : hostStep (.deviceLoad id offset data) s = answerDevice id s (d.load offset data) := by
  simp only [hostStep, hostStepOf, h]

theorem device_load_fits {d : Device} {i : Nat} {bs : List Byte} (fits : i + bs.length ≤ d.capacity) :
    d.load i bs = .ok { d with store := Memory.writeAll d.store i bs } :=
  if_neg (not_lt.mpr fits)

theorem device_load_too_long {d : Device} {i : Nat} {bs : List Byte} (long : d.capacity < i + bs.length) :
    d.load i bs = .error (.outOfRangeAccess (max i d.capacity)) :=
  if_pos long

/-- A loaded byte is read back at its offset (R64). -/
theorem device_readByte_load {d : Device} (hw : Memory.wf d.store) {i : Nat} {bs : List Byte}
    (fits : i + bs.length ≤ d.capacity) {k : Nat} (hk : k < bs.length) :
    Device.readByte { d with store := Memory.writeAll d.store i bs } (i + k) = .ok bs[k] := by
  have stored : Memory.read (Memory.writeAll d.store i bs) (i + k) = some bs[k] := by
    rw [memory_read_writeAll _ _ _ _ hw, if_pos (by omega), Nat.add_sub_cancel_left, List.getElem?_eq_getElem hk]
  have inside : i + k < d.capacity := by omega
  exact device_readByte_stored inside stored

/-- Outside the loaded offsets a device reads as before its load (R64). -/
theorem device_readByte_load_of_outside {d : Device} (hw : Memory.wf d.store) {i j : Nat} {bs : List Byte}
    (hj : j < i ∨ i + bs.length ≤ j) :
    Device.readByte { d with store := Memory.writeAll d.store i bs } j = d.readByte j := by
  have kept : Memory.read (Memory.writeAll d.store i bs) j = Memory.read d.store j := by
    rw [memory_read_writeAll _ _ _ _ hw, if_neg (by omega)]
  simp only [Device.readByte, Device.byteAt, kept]

/-- Settles O44, by whether the data fits: a load is a sequence of writes to the store, or an error before the first. -/
theorem deviceLoadRoundTrip : Obligations.DeviceLoadRoundTrip := by
  intro d offset data hw
  constructor
  · intro fits
    have load := device_load_fits fits
    refine ⟨_, load, fun k => device_readByte_load hw fits, fun j => device_readByte_load_of_outside hw, rfl,
      fun s h hd => ?_⟩
    rw [hostStep_deviceLoad (poolDevice_of_mem h hd), load, answerDevice, setPoolDevice_of_mem h hd]
  · intro long
    have load := device_load_too_long long
    refine ⟨load, fun s h hd => ?_⟩
    rw [hostStep_deviceLoad (poolDevice_of_mem h hd), load, answerDevice]

end Sys2Proof.Proofs
end

section
/-! The bus accesses that change nothing, and `attach` (R54, R56, R60, R63, R66, R67). -/

namespace Sys2Proof.Proofs

open Sys2Proof.Machine Sys2Proof.Laws

/-! ## Accesses -/

theorem hostStep_busWrite_error {s : State} {addr : Word16} {v : Byte} {e : ErrorKind}
    (h : memWrite addr v s = .error e) : hostStep (.busWrite addr v) s = .error e s := by
  simp only [hostStep, hostStepOf, h]

theorem memWrite_unmapped {s : State} {addr : Word16} (h : route s.bindings addr = none) (v : Byte) :
    memWrite addr v s = .error (.unmappedAddress addr) := by
  simp only [memWrite, h]

theorem memWrite_routed_error {s : State} {addr : Word16} {v : Byte} {b : Binding} {e : ErrorKind}
    (h : route s.bindings addr = some b) (hw : b.dev.writeByte (addr.toNat - b.range.start) v = .error e) :
    memWrite addr v s = .error e := by
  simp only [memWrite, h, hw]

/-- Replacing the routed device by itself changes no binding. -/
theorem replaceRouted_self {bs : List Binding} {addr : Word16} {b : Binding} (h : route bs addr = some b) :
    replaceRouted bs addr b.dev = bs := by
  induction bs with
  | nil => rfl
  | cons c bs ih =>
    by_cases hc : c.range.contains addr = true
    · obtain rfl : c = b := by simpa [route, hc] using h
      simp only [replaceRouted, hc, if_true]
    · have rest : route bs addr = some b := by simpa [route, List.find?_cons, hc] using h
      simp only [replaceRouted, hc, if_false, Bool.false_eq_true, ih rest]

/-- Settles O50: no binding is routed to, or the Rom that is comes back from its write as it was. -/
theorem busWritesThatChangeNothing : Obligations.BusWritesThatChangeNothing := by
  intro s addr v
  constructor
  · intro unmapped
    exact hostStep_busWrite_error (memWrite_unmapped (route_none_iff.mpr unmapped) v)
  · intro b routed rom inside
    have written := memWrite_routed routed (device_writeByte_rom rom inside v)
    rw [replaceRouted_self routed] at written
    exact hostStep_busWrite_ok written

/-- Settles O51: both accesses pass the local offset to the routed device, which does not have it. -/
theorem rangeLongerThanItsDevice : Obligations.RangeLongerThanItsDevice := by
  intro s b addr v routed past
  constructor
  · rw [hostStep_busRead, memRead_routed routed, device_readByte_outside past, answerByte]
  · exact hostStep_busWrite_error (memWrite_routed_error routed (device_writeByte_outside past v))

/-! ## Attach -/

theorem hostAttach_illFormed {r : AddrRange} (h : rangeWf r = false) (id : Nat) (s : State) :
    hostAttach r id s = .refused (.illFormedRange r) := by
  simp only [hostAttach, h, Bool.false_eq_true, if_false]

theorem hostAttach_notHeld {r : AddrRange} {id : Nat} {s : State} (hw : rangeWf r = true) (h : poolDevice id s = none) :
    hostAttach r id s = .refused (.deviceNotHeld id) := by
  simp only [hostAttach, hw, if_true, h]

theorem attachBinding_overlapping {r : AddrRange} {bs : List Binding} (h : ∃ b ∈ bs, r.overlaps b.range = true)
    (d : Device) : attachBinding r d bs = .error (.overlappingAttachment r) :=
  if_pos (List.any_eq_true.mpr h)

theorem attachBinding_free {r : AddrRange} {bs : List Binding} (h : ∀ b ∈ bs, r.overlaps b.range = false)
    (d : Device) : attachBinding r d bs = .ok (bs ++ [{ range := r, dev := d }]) :=
  if_neg fun any => by
    obtain ⟨b, hb, overlaps⟩ := List.any_eq_true.mp any
    exact absurd overlaps (Bool.eq_false_iff.mp (h b hb))

theorem hostAttach_overlapping {r : AddrRange} {d : Device} {s : State} (h : s.Inv) (hd : d ∈ s.pool)
    (hw : rangeWf r = true) (overlapping : ∃ b ∈ s.bindings, r.overlaps b.range = true) :
    hostAttach r d.id s = .error (.overlappingAttachment r) s := by
  simp only [hostAttach, hw, if_true, poolDevice_of_mem h hd, attachBinding_overlapping overlapping]

theorem hostAttach_free {r : AddrRange} {d : Device} {s : State} (h : s.Inv) (hd : d ∈ s.pool)
    (hw : rangeWf r = true) (free : ∀ b ∈ s.bindings, r.overlaps b.range = false) :
    hostAttach r d.id s = .ok .unit (attached r d s) := by
  simp only [hostAttach, hw, if_true, poolDevice_of_mem h hd, attachBinding_free free, attached]

/-- Taking a device's name from the host's devices takes that device alone. -/
theorem attached_eq {r : AddrRange} {d : Device} {s : State} (h : s.Inv) (hd : d ∈ s.pool) : attached r d s =
    { s with bindings := s.bindings ++ [⟨r, d⟩], pool := s.pool.filter fun c => c ≠ d } := by
  unfold attached
  congr 1
  refine List.filter_congr fun c hc => ?_
  rw [Bool.eq_iff_iff, bne_iff_ne, decide_eq_true_iff, ne_eq, ne_eq, device_id_inj (pool_names h) hc hd]

/-- After its attach none of the host's devices has the device's name. -/
theorem attached_pool_id_ne {r : AddrRange} {c d : Device} {s : State} (hc : c ∈ (attached r d s).pool) :
    c.id ≠ d.id :=
  bne_iff_ne.mp (List.mem_filter.mp hc).2

/-- Under a name that finds no device the host's own read, write and `load` are refused (R195, log entry 13). -/
theorem hostStep_device_notHeld {s : State} {id : Nat} (h : poolDevice id s = none) (offset : Nat) (v : Byte)
    (data : List Byte) :
    hostStep (.deviceRead id offset) s = .refused (.deviceNotHeld id) ∧
      hostStep (.deviceWrite id offset v) s = .refused (.deviceNotHeld id) ∧
      hostStep (.deviceLoad id offset data) s = .refused (.deviceNotHeld id) := by
  simp only [hostStep, hostStepOf, h, and_self]

/-- Settles O52: the range's form is looked at first, then the name, then the ranges attached. -/
theorem attachAddsOrRejects : Obligations.AttachAddsOrRejects := by
  refine ⟨fun s r id ill => hostAttach_illFormed ill id s, fun s r d h hd hw => ?_, fun s id new => ?_⟩
  · refine ⟨hostAttach_overlapping h hd hw, fun free => ⟨attached r d s, attached_eq h hd, ?_, ?_⟩⟩
    · exact hostAttach_free h hd hw free
    · exact fun c hc => attached_pool_id_ne hc
  · have notHeld := poolDevice_none new
    exact ⟨fun r hw => hostAttach_notHeld hw notHeld, hostStep_device_notHeld notHeld⟩

end Sys2Proof.Proofs
end
